-- ==== Sys2Proof/Word.lean ====
section
/-! DEFINITION. The word types of PBA-1: a storage unit (`UNIT_W = 8`, R6), a 32-bit operand,
register or `DATA` word (`IDX_W`, `VAL_W`, `CNT_W`, R6), a command word (R52) and a response word (R65). -/

namespace Sys2Proof

/-- One storage unit, or one item on `din` or `dout` (R21, R51). -/
abbrev Byte := BitVec 8

/-- A 32-bit operand field, control register or `DATA` word (R6, R13, R65). -/
abbrev Word := BitVec 32

/-- A `CMD80` command word (R52). -/
abbrev CmdWord := BitVec 80

/-- An `RSP40` response word (R65). -/
abbrev RspWord := BitVec 40

end Sys2Proof
end

