-- ==== Sys2Proof/Syntax.lean ====
section
/-! DEFINITION. The commands of PBA-1 (R60), one constructor per row of spec/opcode_table.json. -/

namespace Sys2Proof

/-- The assigned opcodes of R60. -/
inductive Opcode where
  | init
  | adopt
  | set
  | get
  | exportStorage
deriving DecidableEq, Repr

/-- A command with its operands as R57 reads them: a count or a length is `uint` of its field, an
index or a value is `sint` of its field. The payload of `ADOPT` is not part of the word (R58). -/
inductive Instr where
  /-- `INIT n` (R74). -/
  | init (n : Nat)
  /-- `ADOPT n, [..]` with a payload of `len` units (R77). -/
  | adopt (n len : Nat)
  /-- `SET i, v` (R86). -/
  | set (i v : Int)
  /-- `GET i` (R93). -/
  | get (i : Int)
  /-- `EXPORT` (R96). -/
  | exportStorage
deriving DecidableEq, Repr

/-- The opcode a command is encoded with (R60). -/
def Instr.opcode : Instr → Opcode
  | .init _ => .init
  | .adopt _ _ => .adopt
  | .set _ _ => .set
  | .get _ => .get
  | .exportStorage => .exportStorage

end Sys2Proof
end

