-- ==== Sys2Proof/WellFormed.lean ====
section
/-! DEFINITION. The operands a command word can carry: the ranges of R57 and R68. -/

namespace Sys2Proof

/-- A value a 32-bit unsigned field holds (R57). -/
def fitsUnsigned (n : Nat) : Bool := decide (n < 2 ^ 32)

/-- A value a 32-bit two's complement field holds, `-2^31 .. 2^31-1` (R57). -/
def fitsSigned (v : Int) : Bool := decide (-2 ^ 31 ≤ v) && decide (v < 2 ^ 31)

/-- Every operand of the command lies in the range of its field (R57, R68). -/
def Instr.wellFormed : Instr → Bool
  | .init n => fitsUnsigned n
  | .adopt n len => fitsUnsigned n && fitsUnsigned len
  | .set i v => fitsSigned i && fitsSigned v
  | .get i => fitsSigned i
  | .exportStorage => true

/-- `Instr.wellFormed` as a proposition. -/
abbrev Instr.WellFormed (i : Instr) : Prop := i.wellFormed = true

end Sys2Proof
end

