-- ==== Sys2Proof/Decode.lean ====
section
/-! DEFINITION. The command word (R52 to R57), the opcode map (R60, R61), the decoder (R62, R63) and
the encoder (R52, R68). The word is defined by bit numbers only (R38): no byte order enters. -/

namespace Sys2Proof

/-- `OP = cmd[7:0]` (R53). -/
def opField (w : CmdWord) : BitVec 8 := w.extractLsb' 0 8

/-- `RSV = cmd[15:8]` (R54). -/
def rsvField (w : CmdWord) : BitVec 8 := w.extractLsb' 8 8

/-- `A = cmd[47:16]` (R55). -/
def aField (w : CmdWord) : Word := w.extractLsb' 16 32

/-- `B = cmd[79:48]` (R56). -/
def bField (w : CmdWord) : Word := w.extractLsb' 48 32

/-- The word `{B, A, RSV, OP}` (R52). -/
def packCommand (op rsv : BitVec 8) (a b : Word) : CmdWord := b ++ a ++ rsv ++ op

/-- The `OP` value of an assigned opcode (R60). -/
def Opcode.code : Opcode → BitVec 8
  | .init => 0x01#8
  | .adopt => 0x02#8
  | .set => 0x03#8
  | .get => 0x04#8
  | .exportStorage => 0x05#8

/-- The assigned opcode of an `OP` value; `none` for a reserved one (R60, R63). -/
def Opcode.ofCode (op : BitVec 8) : Option Opcode :=
  if op = 0x01#8 then some .init
  else if op = 0x02#8 then some .adopt
  else if op = 0x03#8 then some .set
  else if op = 0x04#8 then some .get
  else if op = 0x05#8 then some .exportStorage
  else none

/-- The match column of R61. -/
def Opcode.matchWord : Opcode → CmdWord
  | .init => 0x00000000_00000000_00_01#80
  | .adopt => 0x00000000_00000000_00_02#80
  | .set => 0x00000000_00000000_00_03#80
  | .get => 0x00000000_00000000_00_04#80
  | .exportStorage => 0x00000000_00000000_00_05#80

/-- The mask column of R61. -/
def Opcode.mask : Opcode → CmdWord
  | .init => 0xFFFFFFFF_00000000_FF_FF#80
  | .adopt => 0x00000000_00000000_FF_FF#80
  | .set => 0x00000000_00000000_FF_FF#80
  | .get => 0xFFFFFFFF_00000000_FF_FF#80
  | .exportStorage => 0xFFFFFFFF_FFFFFFFF_FF_FF#80

/-- `(w & mask) = match`: the word selects the opcode's command (R61). -/
def Opcode.selects (o : Opcode) (w : CmdWord) : Bool := (w &&& o.mask) == o.matchWord

/-- The command of an opcode with the operands R57 reads from the word. -/
def Opcode.operands (o : Opcode) (w : CmdWord) : Instr :=
  match o with
  | .init => .init (aField w).toNat
  | .adopt => .adopt (aField w).toNat (bField w).toNat
  | .set => .set (aField w).toInt (bField w).toInt
  | .get => .get (aField w).toInt
  | .exportStorage => .exportStorage

/-- Why a word is `ILLEGAL` (R62), with the `OP` that the response reports (R104). -/
inductive Reject where
  /-- The opcode is reserved (R63). -/
  | reservedOpcode (op : BitVec 8)
  /-- A field that must be zero is not (R61, R64). -/
  | nonzeroField (op : BitVec 8)
deriving DecidableEq, Repr

/-- The `OP` of the rejected word. -/
def Reject.op : Reject → BitVec 8
  | .reservedOpcode op => op
  | .nonzeroField op => op

/-- What a command word decodes to (R62, R71). -/
inductive Decoded where
  | command (i : Instr)
  | illegal (r : Reject)
deriving DecidableEq, Repr

/-- The decode algorithm of R62, total on every word (R71). -/
def decode (w : CmdWord) : Decoded :=
  match Opcode.ofCode (opField w) with
  | none => .illegal (.reservedOpcode (opField w))
  | some o => if o.selects w then .command (o.operands w) else .illegal (.nonzeroField (opField w))

/-- The raw field that carries an unsigned operand (R57, R68). -/
def unsignedField (n : Nat) : Word := BitVec.ofNat 32 n

/-- The raw field that carries a signed operand: the operand mod 2^32 (R57, R68). -/
def signedField (v : Int) : Word := BitVec.ofInt 32 v

/-- The word of a command: its opcode, `RSV = 0`, and its operands; a field without one is 0 (R52, R68). -/
def encode : Instr → CmdWord
  | .init n => packCommand Opcode.init.code 0#8 (unsignedField n) 0#32
  | .adopt n len => packCommand Opcode.adopt.code 0#8 (unsignedField n) (unsignedField len)
  | .set i v => packCommand Opcode.set.code 0#8 (signedField i) (signedField v)
  | .get i => packCommand Opcode.get.code 0#8 (signedField i) 0#32
  | .exportStorage => packCommand Opcode.exportStorage.code 0#8 0#32 0#32

/-- The bytes that belong on `din` with a word: `uint(B)` after an `ADOPT` word, whether or not it is
legal, and none after any other (R58, R62). -/
def payloadLength (w : CmdWord) : Nat :=
  if opField w = Opcode.adopt.code then (bField w).toNat else 0

/-- The command the decoder reads from a word numbered as spec/opcode_table.json numbers it; the bits
from `nbits` up are 0. -/
def decodeTableWord (nbits w : Nat) : Option Instr :=
  match decode ((BitVec.ofNat nbits w).setWidth 80) with
  | .command i => some i
  | .illegal _ => none

end Sys2Proof
end

