-- ==== Sys2Proof/Config.lean ====
section
/-! DEFINITION. What an implementation fixes: the parameters of R6. `MAX_UNITS` is the one open
parameter; it is carried in `State.maxUnits` (log entry 1), and `Config.Legal` is its constraint. -/

namespace Sys2Proof

/-- `SLOTS_PER_UNIT`: logical values in one storage unit (R6). -/
def Config.slotsPerUnit : Nat := 4

/-- The largest `MAX_UNITS` that R6 admits. -/
def Config.maxUnitsLimit : Nat := 2 ^ 29 - 1

/-- R6's constraint on `MAX_UNITS`: `1 <= MAX_UNITS <= 2^29 - 1`. -/
abbrev Config.Legal (maxUnits : Nat) : Prop := 1 ≤ maxUnits ∧ maxUnits ≤ Config.maxUnitsLimit

/-- `MAX_COUNT = 4 * MAX_UNITS` (R6). -/
def Config.maxCount (maxUnits : Nat) : Nat := Config.slotsPerUnit * maxUnits

/-- DESIGN CHOICE (log entry 1, unsafe): the `MAX_UNITS` of `State.reset`, the value with which
95_test_vectors.md writes its capacity vectors and programs. No statement rests on it. -/
def Config.maxUnitsAtReset : Nat := 4

end Sys2Proof
end

