-- ==== Sys2Proof/Machine/State.lean ====
section
/-! DEFINITION. The state of the block (R13), its ports (R51) as plain data, and the reasons a step
can stop. -/

namespace Sys2Proof.Machine

/-- The response statuses of R66; `Status.code` gives their numbers. -/
inductive Status where
  /-- The command completed. -/
  | ok
  /-- R101. -/
  | indexOutOfRange
  /-- R102. -/
  | storageBounds
  /-- R103. -/
  | capacityExceeded
  /-- R104. -/
  | illegalCommand
deriving DecidableEq, Repr

/-- One response: `STATUS` and `DATA` (R65), and the bytes that follow it on `dout` (R59). -/
structure Response where
  status : Status
  data : Word
  dout : List Byte
deriving DecidableEq, Repr

/-- What the host does next (R3, R124, R125). -/
inductive HostInput where
  /-- A command word on `cmd` with its payload bytes on `din` (R52, R58). -/
  | command (word : CmdWord) (payload : List Byte)
  /-- Reset between commands (R124). -/
  | reset
  /-- Reset while this command is in progress (R125). -/
  | resetDuring (word : CmdWord) (payload : List Byte)
deriving DecidableEq, Repr

/-- The unit array `STORE` (R21, R31): pairs of unit index and unit, indices strictly rising, a unit
with value `Memory.unlisted` left out. `Memory.wf` says so. -/
abbrev Memory := List Host.Cell

/-- The machine. `count`, `slen` and `mem` are the block's whole architectural state (R13); the other
fields are the open parameter and the ports, which R30 keeps apart from state (log entries 1 and 3). -/
structure State where
  /-- `MAX_UNITS` (R6), the parameter: no step changes it. -/
  maxUnits : Nat
  /-- `COUNT`, the number of logical values (R17). -/
  count : Word
  /-- `SLEN`, the number of storage units (R19). -/
  slen : Word
  /-- `STORE[0 .. SLEN-1]` (R21). -/
  mem : Memory
  /-- `din`: the payload of the command being executed, unit 0 first (R51, R58). -/
  din : List Byte
  /-- What the host does from here on, first input first (R15, R30). -/
  host : List HostInput
  /-- `rsp` and `dout`: the responses produced so far, oldest first (R51, R123). -/
  rsp : List Response
deriving DecidableEq, Repr

/-- Why a step stops with a fault. -/
inductive Fault where
  /-- The payload on `din` has not the length that the command word asks for (R58, R62). Raised by
  every command input, and by `ADOPT`. SAFE: R129 says "Not described. A model has no move for it"
  and U11 calls it `stuck`; the model stops where a real block waits (log entry 4). -/
  | payloadLength
deriving DecidableEq, Repr

/-- Why a step refuses. -/
inductive Refusal where
  /-- The instruction has no meaning in the model. Raised by no arm of `exec`: every row of the opcode
  table has its meaning. SAFE: the machine would stop. -/
  | notModelled (mnemonic : String)
deriving DecidableEq, Repr

/-- The machine after reset (R27, R124): `COUNT = 0`, `SLEN = 0`, no unit. The capacity is DESIGN CHOICE
(log entry 1), the empty ports are DESIGN CHOICE (log entry 3). -/
def State.reset : State where
  maxUnits := Config.maxUnitsAtReset
  count := 0#32
  slen := 0#32
  mem := []
  din := []
  host := []
  rsp := []

end Sys2Proof.Machine
end

