-- ==== Sys2Proof/Machine/Flags.lean ====
section
/-! DEFINITION. The block has no status flags (R16). What the spec calls flags are the two bits of a
slot, "ge2" and "odd" (R34, R35); they are computed here, with the clamp, the slot access within a unit,
and the numbers of the response statuses (R10, R33, R65, R66). -/

namespace Sys2Proof.Machine

/-- `clamp3(v)`: 0 below 0, 3 above 3, otherwise `v` (R10). -/
def clamp3 (v : Int) : Fin 4 :=
  if v < 0 then 0 else if 3 < v then 3 else Fin.ofNat 4 v.toNat

/-- The "ge2" flag of a value (R34). -/
def ge2Flag (v : Fin 4) : Bool := decide (2 ≤ v.val)

/-- The "odd" flag of a value (R35). -/
def oddFlag (v : Fin 4) : Bool := decide (v.val % 2 = 1)

/-- `enc2`: bit 0 is the ge2 flag, bit 1 the odd flag (R10). -/
def enc2 (v : Fin 4) : BitVec 2 := BitVec.ofBool (oddFlag v) ++ BitVec.ofBool (ge2Flag v)

/-- `dec2 f = 2 * f[0] + 1 * f[1]` (R10). -/
def dec2 (f : BitVec 2) : Fin 4 := Fin.ofNat 4 (2 * f[0].toNat + 1 * f[1].toNat)

/-- The field of slot `s` in a unit: bits `2s+1 : 2s` (R33). -/
def slotField (b : Byte) (s : Fin 4) : BitVec 2 := b.extractLsb' (2 * s.val) 2

/-- A unit with the field of slot `s` replaced and its other six bits kept (R86). -/
def putSlotField (b : Byte) (s : Fin 4) (f : BitVec 2) : Byte :=
  (b &&& ~~~(0b11#8 <<< (2 * s.val))) ||| (f.setWidth 8 <<< (2 * s.val))

/-- The `STATUS` code of an outcome (R66). -/
def Status.code : Status → BitVec 8
  | .ok => 0x00#8
  | .indexOutOfRange => 0x01#8
  | .storageBounds => 0x02#8
  | .capacityExceeded => 0x03#8
  | .illegalCommand => 0x04#8

/-- The `RSP40` word of a response: `{DATA, STATUS}` (R65). -/
def Response.word (r : Response) : RspWord := r.data ++ r.status.code

end Sys2Proof.Machine
end

