-- ==== Sys2Proof/Machine/Ops.lean ====
section
/-! DEFINITION. The named operations over the store, the registers and the ports: `UnitRead`,
`UnitWrite`, `respond` and `raise` of R9, construction (R73), the payload (R58) and reset (R124).

Raising an error IS the block's whole exception entry: it saves nothing, changes no mode and goes to no
vector (R108). There is no return from one (R112). -/

namespace Sys2Proof.Machine

/-- What a unit that no entry lists holds. DESIGN CHOICE (log entry 2): `INIT` and `ADOPT` write every
unit below `SLEN`, so an unlisted unit below `SLEN` is one to which 0x00 was written last. -/
def Memory.unlisted : Byte := 0x00#8

/-- The unit at address `k`. -/
def Memory.read : Memory → Nat → Byte
  | [], _ => Memory.unlisted
  | (a, b) :: m, k => if a = k then b else Memory.read m k

/-- The entries that list value `b` at address `k`: none for the value an unlisted unit holds. -/
def Memory.cell (k : Nat) (b : Byte) : Memory := if b = Memory.unlisted then [] else [(k, b)]

/-- Write the unit at address `k`, keeping the canonical form. -/
def Memory.write : Memory → Nat → Byte → Memory
  | [], k, b => Memory.cell k b
  | (a, c) :: m, k, b =>
    if k < a then Memory.cell k b ++ (a, c) :: m
    else if k = a then Memory.cell k b ++ m
    else (a, c) :: Memory.write m k b

/-- Write the units of a sequence at `k`, `k + 1`, and so on, in that order. -/
def Memory.writeAll (m : Memory) (k : Nat) : List Byte → Memory
  | [] => m
  | b :: bs => Memory.writeAll (Memory.write m k b) (k + 1) bs

/-- Canonical form from address `lo` up: addresses strictly rising and no entry with the unlisted value. -/
def Memory.wfFrom (lo : Nat) : Memory → Bool
  | [] => true
  | (a, b) :: m => decide (lo ≤ a) && decide (b ≠ Memory.unlisted) && Memory.wfFrom (a + 1) m

/-- The canonical form of the store. -/
def Memory.wf (m : Memory) : Bool := Memory.wfFrom 0 m

/-- Every listed address is below `n`. -/
def Memory.below (n : Nat) (m : Memory) : Bool := m.all fun c => decide (c.1 < n)

/-- `COUNT <- v` (R9). -/
def State.setCount (s : State) (v : Word) : State := { s with count := v }

/-- `SLEN <- v` (R9). -/
def State.setSlen (s : State) (v : Word) : State := { s with slen := v }

/-- Replace the store. -/
def State.setMem (s : State) (m : Memory) : State := { s with mem := m }

/-- Replace what stands on `din`. -/
def State.setDin (s : State) (p : List Byte) : State := { s with din := p }

/-- Replace what the host does next. -/
def State.setHost (s : State) (h : List HostInput) : State := { s with host := h }

/-- One more response on `rsp` (R65). -/
def State.pushRsp (s : State) (r : Response) : State := { s with rsp := s.rsp ++ [r] }

/-- `UnitRead(k)` (R9). Every use stands behind the check `k < SLEN`. -/
def State.unitRead (s : State) (k : Nat) : Byte := Memory.read s.mem k

/-- `UnitWrite(k, b)` (R9). -/
def State.unitWrite (s : State) (k : Nat) (b : Byte) : State := s.setMem (Memory.write s.mem k b)

/-- The unit at address `k` of the address space; `none` at an address that does not exist, since the
addresses are `0 <= k < SLEN` (R31, R42). -/
def State.unitAt (s : State) (k : Nat) : Option Byte :=
  if k < s.slen.toNat then some (s.unitRead k) else none

/-- The units `0 .. SLEN-1` in transport order, unit 0 first (R37, R96). -/
def State.units (s : State) : List Byte := (List.range s.slen.toNat).map s.unitRead

/-- `MAX_COUNT` of this machine (R6). -/
def State.maxCount (s : State) : Nat := Config.maxCount s.maxUnits

/-- `respond(STATUS, data, payload)` (R9). -/
def respond (st : Status) (data : Word) (payload : List Byte) (s : State) : State :=
  s.pushRsp { status := st, data := data, dout := payload }

/-- `raise <Error>(data)`: the response, no payload, and no other effect (R9, R108, R109). -/
def raise (e : Status) (data : Word) (s : State) : State := respond e data [] s

/-- The write stage of a construction command (R73): the old buffer goes entirely (R79), the units of
`bytes` are written from unit 0 up, `SLEN` becomes their number and `COUNT` becomes `n`. -/
def construct (n : Nat) (bytes : List Byte) (s : State) : State :=
  ((s.setMem (Memory.writeAll [] 0 bytes)).setSlen (BitVec.ofNat 32 bytes.length)).setCount
    (BitVec.ofNat 32 n)

/-- The block takes the payload from `din`, to use or to discard (R58). -/
def consumePayload (s : State) : State := s.setDin []

/-- What an `ILLEGAL` word does: its payload is discarded and `ILLEGAL_COMMAND` is raised (R62, R104). -/
def illegalCommand (r : Reject) (s : State) : State :=
  raise .illegalCommand (r.op.setWidth 32) (consumePayload s)

/-- Reset (R124): `COUNT` and `SLEN` become 0 and no unit is left. No response is produced, and a payload
in progress is gone (R125). The parameter, the host and the responses already given are not the block's
state. -/
def applyReset (s : State) : State :=
  (((s.setMem []).setSlen 0#32).setCount 0#32).setDin []

end Sys2Proof.Machine
end

