-- ==== Sys2Proof/Machine/Operands.lean ====
section
/-! DEFINITION. The one operand form that reaches storage, the logical index (R32), with its two checks
(R83, R85, R90, R92); the rounding of a count to units (R8); the capacity checks (R75, R78); and the
logical view (R23). -/

namespace Sys2Proof.Machine

/-- `ceil4(n) = (n + 3) div 4` (R8). -/
def ceil4 (n : Nat) : Nat := (n + 3) / 4

/-- `unit_index(i) = i div 4` (R32). -/
def unitIndex (i : Nat) : Nat := i / 4

/-- `slot(i) = i mod 4` (R32). -/
def slotIndex (i : Nat) : Fin 4 := Fin.ofNat 4 i

/-- Where a logical index lies: its unit and slot (R32), or the error that an access to it raises,
`INDEX_OUT_OF_RANGE` first and then `STORAGE_BOUNDS` (R83, R85, R90, R92, R106). -/
def locate (i : Int) (s : State) : Except Status (Nat × Fin 4) :=
  if i < 0 ∨ (s.count.toNat : Int) ≤ i then .error .indexOutOfRange
  else if s.slen.toNat ≤ unitIndex i.toNat then .error .storageBounds
  else .ok (unitIndex i.toNat, slotIndex i.toNat)

/-- The capacity check on a count, whose error reports `A` (R75, R78). -/
def countFits (n : Nat) (s : State) : Bool := decide (n ≤ s.maxCount)

/-- The capacity check on a payload length, whose error reports `B` (R78). -/
def lengthFits (len : Nat) (s : State) : Bool := decide (len ≤ s.maxUnits)

/-- `Val(i)` (R23); `none` where it is undefined. -/
def State.val (s : State) (i : Nat) : Option (Fin 4) :=
  if i < s.count.toNat ∧ unitIndex i < s.slen.toNat then
    some (dec2 (slotField (s.unitRead (unitIndex i)) (slotIndex i)))
  else none

/-- Slot `t` of unit `k` is filler: the unit exists, `k < SLEN`, and the slot's index is `COUNT` or more (R24).
The whole units of R24's second bullet are among these: `State.isFiller_of_ceil4_le`. -/
def State.isFiller (s : State) (k : Nat) (t : Fin 4) : Bool :=
  decide (k < s.slen.toNat) && decide (s.count.toNat ≤ 4 * k + t.val)

end Sys2Proof.Machine
end

