-- ==== Sys2Proof/Machine/Access.lean ====
section
/-! DEFINITION. The access commands `SET` and `GET` (41_access.md). -/

namespace Sys2Proof.Machine

/-- `SET i, v` (R86): the checks of R83 and R85, then `enc2 (clamp3 v)` into the two bits of the slot. -/
def execSet (i v : Int) (s : State) : Host.Outcome State Fault Refusal :=
  match locate i s with
  | .error e => .next (raise e (signedField i) s)
  | .ok (u, t) =>
    .next (respond .ok 0#32 [] (s.unitWrite u (putSlotField (s.unitRead u) t (enc2 (clamp3 v)))))

/-- `GET i` (R93): the checks of R90 and R92, then the value of the slot in `DATA`. -/
def execGet (i : Int) (s : State) : Host.Outcome State Fault Refusal :=
  match locate i s with
  | .error e => .next (raise e (signedField i) s)
  | .ok (u, t) =>
    .next (respond .ok (BitVec.ofNat 32 (dec2 (slotField (s.unitRead u) t)).val) [] s)

end Sys2Proof.Machine
end

