-- ==== Sys2Proof/Machine/Construct.lean ====
section
/-! DEFINITION. The construction commands `INIT` and `ADOPT` (40_construct.md). -/

namespace Sys2Proof.Machine

/-- `INIT n` (R74): the capacity check (R75), then `ceil4 n` zero units, `SLEN` and `COUNT`. -/
def execInit (n : Nat) (s : State) : Host.Outcome State Fault Refusal :=
  if countFits n s then
    .next (respond .ok 0#32 [] (construct n (List.replicate (ceil4 n) 0x00#8) s))
  else .next (raise .capacityExceeded (unsignedField n) s)

/-- `ADOPT n` with `len` payload units (R77): the count check, then the length check (R78), then the
payload as it is (R80). The payload is consumed either way (R58); one of another length has no described
behaviour (R129). -/
def execAdopt (n len : Nat) (s : State) : Host.Outcome State Fault Refusal :=
  if s.din.length ≠ len then .fault .payloadLength
  else if ¬ countFits n s then .next (raise .capacityExceeded (unsignedField n) (consumePayload s))
  else if ¬ lengthFits len s then
    .next (raise .capacityExceeded (unsignedField len) (consumePayload s))
  else .next (respond .ok 0#32 [] (consumePayload (construct n s.din s)))

end Sys2Proof.Machine
end

