-- ==== Sys2Proof/Machine/Transport.lean ====
section
/-! DEFINITION. The transport command `EXPORT` (42_export.md). -/

namespace Sys2Proof.Machine

/-- `EXPORT` (R96): `DATA = SLEN` and the units `0 .. SLEN-1` on `dout`, filler included (R97). -/
def execExport (s : State) : Host.Outcome State Fault Refusal :=
  .next (respond .ok s.slen s.units s)

end Sys2Proof.Machine
end

