-- ==== Sys2Proof/Machine/Dispatch.lean ====
section
/-! DEFINITION. One arm per command (R60). -/

namespace Sys2Proof.Machine

def exec (i : Instr) (s : State) : Host.Outcome State Fault Refusal :=
  match i with
  | .init n => Sys2Proof.Machine.execInit n s
  | .adopt n len => Sys2Proof.Machine.execAdopt n len s
  | .set idx v => Sys2Proof.Machine.execSet idx v s
  | .get idx => Sys2Proof.Machine.execGet idx s
  | .exportStorage => Sys2Proof.Machine.execExport s

end Sys2Proof.Machine
end

