-- ==== Sys2Proof/Machine/Command.lean ====
section
/-! DEFINITION. One transaction on the command port: the payload, decode, execution (R3, R58, R62, R122). -/

namespace Sys2Proof.Machine

/-- Run one command word whose payload stands on `din`. A payload of another length than R58 and R62 ask
for has no described behaviour (R129, log entry 4). -/
def runCommand (w : CmdWord) (s : State) : Host.Outcome State Fault Refusal :=
  if s.din.length ≠ payloadLength w then .fault .payloadLength
  else match decode w with
    | .illegal r => .next (illegalCommand r s)
    | .command i => exec i s

/-- Take one host input: a command with its payload, or a reset, between commands (R124) or in the middle
of one, which then gives no response (R125). -/
def takeInput (x : HostInput) (s : State) : Host.Outcome State Fault Refusal :=
  match x with
  | .command w p => runCommand w (s.setDin p)
  | .reset => .next (applyReset s)
  | .resetDuring _ _ => .next (applyReset s)

/-- A command word with the payload it asks for, all zero bytes (log entry 7). -/
def zeroPayloadCommand (w : CmdWord) : HostInput :=
  .command w (List.replicate (payloadLength w) 0x00#8)

end Sys2Proof.Machine
end

