-- ==== Sys2Proof/Machine/Step.lean ====
section
/-! DEFINITION. One step: the block takes the host's next input; with none it holds its state (R3, R121).
The block fetches nothing (R15): its next command is the first input of `State.host`. -/

namespace Sys2Proof.Machine

/-- One step of the machine. -/
def step (s : State) : Host.Outcome State Fault Refusal :=
  match s.host with
  | [] => .next s
  | x :: rest => takeInput x (s.setHost rest)

/-- `s` with the given command word as the host's very next input, with a payload of the length it asks
for (log entry 7). -/
def State.withFetchWord (s : State) (nbits w : Nat) : State :=
  s.setHost (zeroPayloadCommand ((BitVec.ofNat nbits w).setWidth 80) :: s.host)

end Sys2Proof.Machine
end

