-- ==== Sys2Proof/Machine/Assembler.lean ====
section
/-! DEFINITION. The assembler notation of R68 to R70: what each line assembles to, the text of one line,
and the textual form of a command word. Text is a list of characters. -/

namespace Sys2Proof.Machine

/-- One line of R68 or R69 with its operands as integers. -/
inductive AsmLine where
  | init (n : Int)
  | adopt (n : Int) (bytes : List Int)
  | set (i v : Int)
  | get (i : Int)
  | exportStorage
  /-- `.word80`, a raw command word (R69). -/
  | word80 (w : Int)
deriving DecidableEq, Repr

/-- An integer in `0 .. 2^32-1` (R68). -/
def inUnsignedRange (n : Int) : Bool := decide (0 ≤ n) && fitsUnsigned n.toNat

/-- An integer in `0 .. 255`, one payload byte (R68). -/
def inByteRange (b : Int) : Bool := decide (0 ≤ b) && decide (b < 256)

/-- The command a line assembles to, with its payload; `none` for an operand outside its stated range,
which "is not encoded" (R68). A `.word80` line has no payload (R69). -/
def assemble : AsmLine → Option HostInput
  | .init n =>
    if inUnsignedRange n then some (.command (encode (.init n.toNat)) []) else none
  | .adopt n bytes =>
    if inUnsignedRange n && fitsUnsigned bytes.length && bytes.all inByteRange then
      some (.command (encode (.adopt n.toNat bytes.length)) (bytes.map (BitVec.ofInt 8)))
    else none
  | .set i v =>
    if fitsSigned i && fitsSigned v then some (.command (encode (.set i v)) []) else none
  | .get i => if fitsSigned i then some (.command (encode (.get i)) []) else none
  | .exportStorage => some (.command (encode .exportStorage) [])
  | .word80 w =>
    if decide (0 ≤ w) && decide (w < 2 ^ 80) then some (.command (BitVec.ofInt 80 w) []) else none

/-- The value of a digit character in the given base. -/
def digitValue (base : Nat) (c : Char) : Option Nat :=
  let n := c.toNat
  let v :=
    if 48 ≤ n ∧ n ≤ 57 then some (n - 48)
    else if 65 ≤ n ∧ n ≤ 70 then some (n - 55)
    else if 97 ≤ n ∧ n ≤ 102 then some (n - 87)
    else none
  match v with
  | some d => if d < base then some d else none
  | none => none

/-- Read digits onto `acc`; `_` splits digit groups (R8, log entry 11). -/
def readDigits (base : Nat) : Nat → List Char → Option Nat
  | acc, [] => some acc
  | acc, c :: cs =>
    if c = '_' then readDigits base acc cs
    else match digitValue base c with
      | some d => readDigits base (base * acc + d) cs
      | none => none

/-- A nonempty digit string that begins with a digit. -/
def readNumber (base : Nat) : List Char → Option Nat
  | [] => none
  | c :: cs => if c = '_' then none else readDigits base 0 (c :: cs)

/-- An integer of R68: decimal with an optional leading `-`, or hexadecimal `0x..`. -/
def readInt : List Char → Option Int
  | '0' :: 'x' :: cs => (readNumber 16 cs).map Int.ofNat
  | '-' :: cs => (readNumber 10 cs).map fun n => -Int.ofNat n
  | cs => (readNumber 10 cs).map Int.ofNat

/-- A space or a tab (log entry 11). -/
def isBlankChar (c : Char) : Bool := c == ' ' || c == '\t'

/-- A mark that stands for itself: comma, opening or closing bracket. -/
def isMarkChar (c : Char) : Bool := c == ',' || c == '[' || c == ']'

/-- The tokens of a line: marks, and maximal runs of other characters between blanks. `;` ends the line (R68).
`cur` is the run being read. -/
def lineTokens (cur : List Char) : List Char → List (List Char)
  | [] => if cur.isEmpty then [] else [cur]
  | c :: cs =>
    if c = ';' then (if cur.isEmpty then [] else [cur])
    else if isBlankChar c then (if cur.isEmpty then lineTokens [] cs else cur :: lineTokens [] cs)
    else if isMarkChar c then
      (if cur.isEmpty then [c] :: lineTokens [] cs else cur :: [c] :: lineTokens [] cs)
    else lineTokens (cur ++ [c]) cs

/-- The rest of a bracketed byte list after its first item: `, b` again and again, then `]`. -/
def readBytesTail : List (List Char) → Option (List Int)
  | [[']']] => some []
  | [','] :: b :: ts =>
    match readInt b, readBytesTail ts with
    | some v, some vs => some (v :: vs)
    | _, _ => none
  | _ => none

/-- A bracketed byte list `[b0, b1, ...]`, possibly empty (R68). -/
def readBytes : List (List Char) → Option (List Int)
  | [['['], [']']] => some []
  | ['['] :: b :: ts =>
    match readInt b, readBytesTail ts with
    | some v, some vs => some (v :: vs)
    | _, _ => none
  | _ => none

/-- One line of assembler text (R68, R69): `some none` for a line without a command, `none` for an error.
DESIGN CHOICE (log entry 11): a `.word80` literal may have any number of hexadecimal digits, which R69 leaves
open; `assemble` asks for a value below 2^80. -/
def readLine (text : List Char) : Option (Option AsmLine) :=
  match lineTokens [] text with
  | [] => some none
  | [['I', 'N', 'I', 'T'], n] => (readInt n).map fun n => some (.init n)
  | ['A', 'D', 'O', 'P', 'T'] :: n :: [','] :: ts =>
    match readInt n, readBytes ts with
    | some n, some bytes => some (some (.adopt n bytes))
    | _, _ => none
  | [['S', 'E', 'T'], i, [','], v] =>
    match readInt i, readInt v with
    | some i, some v => some (some (.set i v))
    | _, _ => none
  | [['G', 'E', 'T'], i] => (readInt i).map fun i => some (.get i)
  | [['E', 'X', 'P', 'O', 'R', 'T']] => some (some .exportStorage)
  | [['.', 'w', 'o', 'r', 'd', '8', '0'], '0' :: 'x' :: w] =>
    (readNumber 16 w).map fun w => some (.word80 (Int.ofNat w))
  | _ => none

/-- The host inputs of a program text, one command a line (R68); `none` if a line is in error. -/
def assembleProgram : List (List Char) → Option (List HostInput)
  | [] => some []
  | l :: ls =>
    match readLine l, assembleProgram ls with
    | some none, some xs => some xs
    | some (some line), some xs =>
      match assemble line with
      | some x => some (x :: xs)
      | none => none
    | _, _ => none

/-- One upper-case hexadecimal digit. -/
def hexDigit (d : BitVec 4) : Char :=
  if d.toNat < 10 then Char.ofNat (48 + d.toNat) else Char.ofNat (55 + d.toNat)

/-- The `n` hexadecimal digits of a word from bit `4 * n - 1` down. -/
def hexDigits (w : CmdWord) (lo : Nat) : Nat → List Char
  | 0 => []
  | n + 1 => hexDigit (w.extractLsb' (lo + 4 * n) 4) :: hexDigits w lo n

/-- The textual form of a command word, `B`, `A`, `RSV` and `OP`, most significant first (R70). -/
def wordText (w : CmdWord) : List Char :=
  ['0', 'x'] ++ hexDigits w 48 8 ++ ['_'] ++ hexDigits w 16 8 ++ ['_'] ++ hexDigits w 8 2 ++ ['_']
    ++ hexDigits w 0 2

end Sys2Proof.Machine
end

