-- ==== Sys2Proof/Machine/WholeStep.lean ====
section
/-! DEFINITION. The block a second time: the state of R28, a count and a list of bytes, and the
whole-command function of R122, written from R122's own text. `step` does not call it; a statement says
that the two agree. -/

namespace Sys2Proof.Machine

/-- The structure of R28. `SLEN` is the length of `store`. -/
structure PbaState where
  count : Nat
  store : List Byte
deriving DecidableEq, Repr

/-- What R28's structure holds of a state. -/
def State.abstract (s : State) : PbaState := { count := s.count.toNat, store := s.units }

/-- The `SET` row of R122 on a unit: `(b & ~(0b11 << 2s)) | (enc2(c) << 2s)`. -/
def wholeSetUnit (b : Byte) (t : Nat) (c : Fin 4) : Byte :=
  (b &&& ~~~(0b11#8 <<< (2 * t))) ||| ((enc2 c).setWidth 8 <<< (2 * t))

/-- `step(st, w, P)` of R122, with `MAX_UNITS` as an argument. -/
def wholeStep (maxUnits : Nat) (st : PbaState) (w : CmdWord) (p : List Byte) : PbaState × Response :=
  match decode w with
  | .illegal r => (st, ⟨.illegalCommand, r.op.setWidth 32, []⟩)
  | .command (.init n) =>
    if n > Config.maxCount maxUnits then (st, ⟨.capacityExceeded, aField w, []⟩)
    else (⟨n, List.replicate (ceil4 n) 0x00#8⟩, ⟨.ok, 0#32, []⟩)
  | .command (.adopt n len) =>
    if n > Config.maxCount maxUnits then (st, ⟨.capacityExceeded, aField w, []⟩)
    else if len > maxUnits then (st, ⟨.capacityExceeded, bField w, []⟩)
    else (⟨n, p⟩, ⟨.ok, 0#32, []⟩)
  | .command (.set i v) =>
    if i < 0 ∨ i ≥ st.count then (st, ⟨.indexOutOfRange, aField w, []⟩)
    else if i.toNat / 4 ≥ st.store.length then (st, ⟨.storageBounds, aField w, []⟩)
    else
      (⟨st.count, st.store.modify (i.toNat / 4) fun b => wholeSetUnit b (i.toNat % 4) (clamp3 v)⟩,
        ⟨.ok, 0#32, []⟩)
  | .command (.get i) =>
    if i < 0 ∨ i ≥ st.count then (st, ⟨.indexOutOfRange, aField w, []⟩)
    else if i.toNat / 4 ≥ st.store.length then (st, ⟨.storageBounds, aField w, []⟩)
    else
      (st, ⟨.ok, BitVec.ofNat 32
        (dec2 ((st.store.getD (i.toNat / 4) 0x00#8).extractLsb' (2 * (i.toNat % 4)) 2)).val, []⟩)
  | .command .exportStorage => (st, ⟨.ok, BitVec.ofNat 32 st.store.length, st.store⟩)

end Sys2Proof.Machine
end

