-- ==== Sys2Proof/Safety.lean ====
section
/-! DEFINITION. What claims are stated in: the state invariant (R29 and the model's own form of the store),
a run over a list of host inputs (R43, R123), and "nothing went wrong" (R123). -/

namespace Sys2Proof.Machine

/-- The invariant: R6's constraint on the parameter, R29's `COUNT <= MAX_COUNT` and `SLEN <= MAX_UNITS`,
the store in canonical form with entries below `SLEN` only, and no payload left between commands (R26). -/
abbrev State.Inv (s : State) : Prop :=
  Config.Legal s.maxUnits ∧ s.count.toNat ≤ s.maxCount ∧ s.slen.toNat ≤ s.maxUnits ∧
    Memory.wf s.mem = true ∧ Memory.below s.slen.toNat s.mem = true ∧ s.din = []

/-- The inputs of a list one after the other (R3, R43). -/
def runInputs : List HostInput → State → Host.Outcome State Fault Refusal
  | [], s => .next s
  | x :: xs, s =>
    match takeInput x s with
    | .next t => runInputs xs t
    | .fault f => .fault f
    | .refused r => .refused r

/-- `k` steps one after the other. -/
def runSteps : Nat → State → Host.Outcome State Fault Refusal
  | 0, s => .next s
  | k + 1, s =>
    match step s with
    | .next t => runSteps k t
    | .fault f => .fault f
    | .refused r => .refused r

/-- The command with its payload, as the host gives it (R51). -/
def commandOf (i : Instr) (payload : List Byte) : HostInput := .command (encode i) payload

/-- The host's duty of R129: a payload of exactly the length the word asks for (R58, R62). A reset carries none. -/
def HostInput.dutyMet : HostInput → Bool
  | .command w p => decide (p.length = payloadLength w)
  | .reset => true
  | .resetDuring _ _ => true

/-- The input is a command other than `INIT`, `ADOPT` and `SET` at index `i`, with its payload (Q1). -/
def HostInput.keepsIndex (i : Int) : HostInput → Bool
  | .command w p =>
    decide (p.length = payloadLength w) &&
      match decode w with
      | .illegal _ => true
      | .command (.init _) => false
      | .command (.adopt _ _) => false
      | .command (.set j _) => decide (j ≠ i)
      | .command (.get _) => true
      | .command .exportStorage => true
  | .reset => false
  | .resetDuring _ _ => false

/-- The input is a command that begins no new buffer, with its payload (R18, R79). -/
def HostInput.keepsBuffer : HostInput → Bool
  | .command w p =>
    decide (p.length = payloadLength w) &&
      match decode w with
      | .illegal _ => true
      | .command (.init _) => false
      | .command (.adopt _ _) => false
      | .command (.set _ _) => true
      | .command (.get _) => true
      | .command .exportStorage => true
  | .reset => false
  | .resetDuring _ _ => false

/-- Every response is `OK`: "nothing went wrong" (R123). -/
def AllOk (rs : List Response) : Bool := rs.all fun r => decide (r.status = .ok)

/-- The block's own state (R13) is the same in both. -/
abbrev State.SameBuffer (s t : State) : Prop := s.count = t.count ∧ s.slen = t.slen ∧ s.mem = t.mem

end Sys2Proof.Machine
end

