-- ==== Sys2Proof/Certificates/Slice0/Obligations.lean ====
section
/-! DEFINITION. What is claimed of the model, each statement from the rules its docstring names.

A state with `Memory.wf s.mem` has its store in the model's canonical form; `StepKeepsInvariant` says that every
step keeps it, within `State.Inv`. No statement rests on the capacity of `State.reset` (log entry 1). -/

open Sys2Proof Sys2Proof.Machine

/-! ## Values and units -/

/-- R10: the clamp by cases, the two flags of `enc2`, `dec2` as a sum, that they undo each other, and the
four encodings. -/
def Obligations.ValueFunctions : Prop :=
  (∀ v : Int, v < 0 → clamp3 v = 0) ∧ (∀ v : Int, 3 < v → clamp3 v = 3) ∧
  (∀ v : Int, 0 ≤ v → v ≤ 3 → ((clamp3 v).val : Int) = v) ∧
  (∀ c : Fin 4, (enc2 c)[0] = decide (2 ≤ c.val) ∧ (enc2 c)[1] = decide (c.val % 2 = 1)) ∧
  (∀ f : BitVec 2, (dec2 f).val = 2 * f[0].toNat + 1 * f[1].toNat) ∧
  (∀ c : Fin 4, dec2 (enc2 c) = c) ∧ (∀ f : BitVec 2, enc2 (dec2 f) = f) ∧
  enc2 0 = 0b00#2 ∧ enc2 1 = 0b10#2 ∧ enc2 2 = 0b01#2 ∧ enc2 3 = 0b11#2

/-- R36: a unit whose slots hold `v0` to `v3` is the OR of the shifted fields, and the table of what each
value contributes in each slot. -/
def Obligations.UnitIsOrOfItsSlots : Prop :=
  (∀ (b : Byte) (v0 v1 v2 v3 : Fin 4), slotField b 0 = enc2 v0 → slotField b 1 = enc2 v1 →
    slotField b 2 = enc2 v2 → slotField b 3 = enc2 v3 →
    b = (enc2 v0).setWidth 8 ||| (enc2 v1).setWidth 8 <<< 2 ||| (enc2 v2).setWidth 8 <<< 4 |||
      (enc2 v3).setWidth 8 <<< 6) ∧
  (List.range 4).map (fun t => (enc2 0).setWidth 8 <<< (2 * t)) = [0x00#8, 0x00#8, 0x00#8, 0x00#8] ∧
  (List.range 4).map (fun t => (enc2 1).setWidth 8 <<< (2 * t)) = [0x02#8, 0x08#8, 0x20#8, 0x80#8] ∧
  (List.range 4).map (fun t => (enc2 2).setWidth 8 <<< (2 * t)) = [0x01#8, 0x04#8, 0x10#8, 0x40#8] ∧
  (List.range 4).map (fun t => (enc2 3).setWidth 8 <<< (2 * t)) = [0x03#8, 0x0C#8, 0x30#8, 0xC0#8]

/-- R34, R35: once value `c` is stored in slot `t`, bit `2t` of the unit is set iff `c >= 2`, bit `2t+1` iff
`c` is odd, and the other six bits are as before. -/
def Obligations.SlotWriteSetsTwoFlags : Prop :=
  ∀ (b : Byte) (t c : Fin 4),
    (putSlotField b t (enc2 c)).getLsbD (2 * t.val) = decide (2 ≤ c.val) ∧
    (putSlotField b t (enc2 c)).getLsbD (2 * t.val + 1) = decide (c.val % 2 = 1) ∧
    ∀ j : Nat, j ≠ 2 * t.val → j ≠ 2 * t.val + 1 →
      (putSlotField b t (enc2 c)).getLsbD j = b.getLsbD j

/-- R32: the unit is `i div 4`, bits 31 to 2 of the index field; the slot is `i mod 4`, bits 1 to 0; and a
command uses them for an index with `0 <= i < COUNT` only. -/
def Obligations.IndexMapsToUnitAndSlot : Prop :=
  (∀ a : Word, unitIndex a.toNat = a.toNat / 4 ∧ unitIndex a.toNat = (a.extractLsb' 2 30).toNat ∧
    (slotIndex a.toNat).val = a.toNat % 4 ∧ (slotIndex a.toNat).val = (a.extractLsb' 0 2).toNat) ∧
  ∀ (i : Int) (s : State) (u : Nat) (t : Fin 4), locate i s = .ok (u, t) →
    0 ≤ i ∧ i < s.count.toNat ∧ u = unitIndex i.toNat ∧ t = slotIndex i.toNat

/-! ## The command word and the response word -/

/-- Sample words of every command, written from R52, R60 and R61 (their text form is R70's). -/
def Obligations.SampleWordsDecode : Prop :=
  decode 0x00000000_00000005_00_01#80 = .command (.init 5) ∧
  decode 0x00000002_00000006_00_02#80 = .command (.adopt 6 2) ∧
  decode 0xFFFFFFFB_00000002_00_03#80 = .command (.set 2 (-5)) ∧
  decode 0x00000000_FFFFFFFF_00_04#80 = .command (.get (-1)) ∧
  decode 0x00000000_00000000_00_05#80 = .command .exportStorage ∧
  decode 0x00000000_00000000_00_06#80 = .illegal (.reservedOpcode 0x06#8) ∧
  decode 0x00000001_00000000_00_04#80 = .illegal (.nonzeroField 0x04#8)

/-- R52, R57, R60, R61: the word of a command decodes to that command, with every operand at every value its
field carries. -/
def Obligations.DecodeOfEncode : Prop :=
  ∀ i : Instr, i.WellFormed → decode (encode i) = .command i

/-- A word that decodes to a command is that command's word, and its operands are in range: no two words
mean the same command, and no bit of a legal word is ignored (R61, R62, R64). -/
def Obligations.EncodeOfDecode : Prop :=
  ∀ (w : CmdWord) (i : Instr), decode w = .command i → i.WellFormed ∧ encode i = w

/-- R71: every word decodes to exactly one command, whose row alone matches it, or to `ILLEGAL`, and then no
row matches. -/
def Obligations.DecoderTotalAndUnambiguous : Prop :=
  (∀ w : CmdWord, (∃ i, decode w = .command i ∧ ∀ o : Opcode, o.selects w = true ↔ o = i.opcode) ∨
    (∃ r, decode w = .illegal r ∧ ∀ o : Opcode, o.selects w = false)) ∧
  ∀ (w : CmdWord) (o o' : Opcode), o.selects w = true → o'.selects w = true → o = o'

/-- R54, R63, R104: a reserved opcode (`0x00` and `0x06` to `0xFF`), a nonzero `RSV`, or a nonzero operand field
that must be zero (`B` of `INIT` and `GET`, `A` and `B` of `EXPORT`): the step answers `ILLEGAL_COMMAND` with
`DATA = zext_32(OP)`, and nothing else changes; the payload is gone. -/
def Obligations.IllegalWordIsRejected : Prop :=
  ∀ (s : State) (w : CmdWord) (p : List Byte) (rest : List HostInput),
    s.host = .command w p :: rest → p.length = payloadLength w →
    (opField w = 0x00#8 ∨ 0x06#8 ≤ opField w ∨ rsvField w ≠ 0#8 ∨
      ((opField w = 0x01#8 ∨ opField w = 0x04#8 ∨ opField w = 0x05#8) ∧ bField w ≠ 0#32) ∨
      (opField w = 0x05#8 ∧ aField w ≠ 0#32)) →
    step s = .next { s with
      host := rest
      din := []
      rsp := s.rsp ++ [⟨.illegalCommand, (opField w).setWidth 32, []⟩] }

/-- R65, R66: where `STATUS` and `DATA` stand in the response word, the five codes, and that no other code is
ever produced. -/
def Obligations.ResponseWordLayout : Prop :=
  (∀ r : Response, r.word.extractLsb' 0 8 = r.status.code ∧ r.word.extractLsb' 8 32 = r.data) ∧
  Status.ok.code = 0x00#8 ∧ Status.indexOutOfRange.code = 0x01#8 ∧ Status.storageBounds.code = 0x02#8 ∧
  Status.capacityExceeded.code = 0x03#8 ∧ Status.illegalCommand.code = 0x04#8 ∧
  ∀ st : Status, st.code < 0x05#8

/-! ## The step and its inputs -/

/-- R3, R62: where the next input is a command whose word decodes to `i`, with the payload it asks for, the
step is `exec i` on the state with that input taken and the payload on `din`. -/
def Obligations.StepRunsDecodedCommand : Prop :=
  ∀ (s : State) (w : CmdWord) (p : List Byte) (rest : List HostInput) (i : Instr),
    s.host = .command w p :: rest → p.length = payloadLength w → decode w = .command i →
    step s = exec i { s with host := rest, din := p }

/-- A command whose payload has not the length of R58 and R62 stops the model with the one fault. The model's
choice where R129 says "Not described" (log entry 4). -/
def Obligations.WrongPayloadLengthStops : Prop :=
  ∀ (s : State) (w : CmdWord) (p : List Byte) (rest : List HostInput),
    s.host = .command w p :: rest → p.length ≠ payloadLength w → step s = .fault .payloadLength

/-- R121: between commands the block holds its state. -/
def Obligations.NoInputHoldsState : Prop := ∀ s : State, s.host = [] → step s = .next s

/-- R124, R125: reset, between commands or during one, sets `COUNT` and `SLEN` to 0 and leaves no unit to
observe; it gives no response, and the inputs after it remain to be taken. -/
def Obligations.ResetInputResets : Prop :=
  ∀ (s : State) (x : HostInput) (rest : List HostInput), s.host = x :: rest →
    (x = .reset ∨ ∃ w p, x = .resetDuring w p) →
    ∃ t, step s = .next t ∧ t.count = 0#32 ∧ t.slen = 0#32 ∧ (∀ k, t.unitAt k = none) ∧
      t.rsp = s.rsp ∧ t.host = rest ∧ t.din = [] ∧ t.maxUnits = s.maxUnits

/-- R27: after reset `COUNT` and `SLEN` are 0 and no unit can be observed, and that is the buffer which
`INIT 0` leaves on any earlier state. -/
def Obligations.ResetStateIsInitZero : Prop :=
  State.reset.count = 0#32 ∧ State.reset.slen = 0#32 ∧ (∀ k, State.reset.unitAt k = none) ∧
  ∀ s : State, ∃ t, exec (.init 0) s = .next t ∧ t.SameBuffer State.reset

/-- R29 and log entry 1: the invariant holds at reset, at the capacity the model chose there and at every
other legal one. -/
def Obligations.InvariantAtReset : Prop :=
  State.reset.Inv ∧ ∀ m : Nat, Config.Legal m → ({ State.reset with maxUnits := m } : State).Inv

/-- R29: from every state of the invariant, every step that answers a next state keeps it: the capacity is
legal, `COUNT <= MAX_COUNT`, `SLEN <= MAX_UNITS`, the store is canonical and lists units below `SLEN` only,
and no payload is left over. -/
def Obligations.StepKeepsInvariant : Prop :=
  ∀ s t : State, s.Inv → step s = .next t → t.Inv

/-- R30: the parameter `MAX_UNITS` is never changed. -/
def Obligations.CapacityNeverChanges : Prop :=
  ∀ s t : State, step s = .next t → t.maxUnits = s.maxUnits

/-- R43: taking the inputs of the host's list one step at a time is taking them one after the other, in
arrival order. -/
def Obligations.StepsTakeInputsInOrder : Prop :=
  ∀ (xs rest : List HostInput) (s : State),
    runSteps xs.length (s.setHost (xs ++ rest)) = runInputs xs (s.setHost rest)

/-! ## INIT and ADOPT -/

/-- R74, R75: within capacity `INIT n` gives `COUNT = n`, `SLEN = ceil4 n`, that many zero units and no other,
and `OK`; beyond it, `CAPACITY_EXCEEDED` with `DATA = A` and nothing else; a word with `RSV` or `B` nonzero is
no `INIT`. -/
def Obligations.InitBuildsZeroBuffer : Prop :=
  (∀ (n : Nat) (s : State), n < 2 ^ 32 →
    (n ≤ 4 * s.maxUnits → ∃ t, exec (.init n) s = .next t ∧ t.count.toNat = n ∧
      t.slen.toNat = (n + 3) / 4 ∧ (∀ k, t.unitAt k = if k < (n + 3) / 4 then some 0x00#8 else none) ∧
      t.rsp = s.rsp ++ [⟨.ok, 0#32, []⟩] ∧
      t.maxUnits = s.maxUnits ∧ t.din = s.din ∧ t.host = s.host) ∧
    (4 * s.maxUnits < n → exec (.init n) s =
      .next { s with rsp := s.rsp ++ [⟨.capacityExceeded, BitVec.ofNat 32 n, []⟩] })) ∧
  ∀ w : CmdWord, opField w = 0x01#8 → (rsvField w ≠ 0#8 ∨ bField w ≠ 0#32) →
    decode w = .illegal (.nonzeroField 0x01#8)

/-- R76: after a successful `INIT n` every logical value and every filler slot is 0; after `INIT 0` there is no
unit, every `SET` and `GET` fails with `INDEX_OUT_OF_RANGE`, and `EXPORT` returns the empty sequence. -/
def Obligations.InitCornerValues : Prop :=
  ∀ (n : Nat) (s t : State), n < 2 ^ 32 → n ≤ 4 * s.maxUnits → exec (.init n) s = .next t →
    t.slen.toNat = ceil4 n ∧ (∀ i, i < n → t.val i = some 0) ∧
    (∀ (k : Nat) (c : Fin 4), k < ceil4 n → slotField (t.unitRead k) c = 0b00#2) ∧
    (n = 0 → (∀ i v : Int,
        exec (.set i v) t = .next (t.pushRsp ⟨.indexOutOfRange, BitVec.ofInt 32 i, []⟩) ∧
        exec (.get i) t = .next (t.pushRsp ⟨.indexOutOfRange, BitVec.ofInt 32 i, []⟩)) ∧
      exec .exportStorage t = .next (t.pushRsp ⟨.ok, 0#32, []⟩))

/-- R77, R78, R80: with its `L` payload bytes on `din`, `ADOPT n, L` beyond `MAX_COUNT` reports `A`, else beyond
`MAX_UNITS` reports `B`, and either way only the payload is gone; within both, `COUNT = n`, `SLEN = L` and the
units are the bytes as given, whatever `L` is beside `ceil4 n`. A word with `RSV` nonzero is no `ADOPT`. -/
def Obligations.AdoptTakesPayloadAsGiven : Prop :=
  (∀ (n len : Nat) (s : State), n < 2 ^ 32 → len < 2 ^ 32 → s.din.length = len →
    (4 * s.maxUnits < n → exec (.adopt n len) s =
      .next { s with din := [], rsp := s.rsp ++ [⟨.capacityExceeded, BitVec.ofNat 32 n, []⟩] }) ∧
    (n ≤ 4 * s.maxUnits → s.maxUnits < len → exec (.adopt n len) s =
      .next { s with din := [], rsp := s.rsp ++ [⟨.capacityExceeded, BitVec.ofNat 32 len, []⟩] }) ∧
    (n ≤ 4 * s.maxUnits → len ≤ s.maxUnits → ∃ t, exec (.adopt n len) s = .next t ∧
      t.count.toNat = n ∧ t.slen.toNat = len ∧ (∀ k, t.unitAt k = s.din[k]?) ∧
      t.rsp = s.rsp ++ [⟨.ok, 0#32, []⟩] ∧ t.din = [] ∧
      t.maxUnits = s.maxUnits ∧ t.host = s.host)) ∧
  ∀ w : CmdWord, opField w = 0x02#8 → rsvField w ≠ 0#8 → decode w = .illegal (.nonzeroField 0x02#8)

/-- R79: a construction command takes nothing from the buffer before it. From any two states with one capacity
and one payload it answers the same response, and if that is `OK` the two buffers are the same. -/
def Obligations.ConstructionForgetsOldBuffer : Prop :=
  ∀ (i : Instr) (s s' t : State), (i.opcode = .init ∨ i.opcode = .adopt) →
    s.maxUnits = s'.maxUnits → s.din = s'.din → exec i s = .next t →
    ∃ t' r, exec i s' = .next t' ∧ t.rsp = s.rsp ++ [r] ∧ t'.rsp = s'.rsp ++ [r] ∧
      (r.status = .ok → t.SameBuffer t')

/-! ## SET and GET -/

/-- R83, R85, R86: the index check reports `A`, then the storage check reports `A`, each with no other effect;
past both, the unit `i div 4` becomes `(unit & ~(0b11 << 2s)) | (enc2(clamp3 v) << 2s)`, no other unit changes,
and `OK` is answered; a word with `RSV` nonzero is no `SET`. -/
def Obligations.SetStoresClampedValue : Prop :=
  (∀ (i v : Int) (s : State), Memory.wf s.mem = true →
    (i < 0 ∨ s.count.toNat ≤ i → exec (.set i v) s =
      .next { s with rsp := s.rsp ++ [⟨.indexOutOfRange, BitVec.ofInt 32 i, []⟩] }) ∧
    (0 ≤ i → i < s.count.toNat → s.slen.toNat ≤ i.toNat / 4 → exec (.set i v) s =
      .next { s with rsp := s.rsp ++ [⟨.storageBounds, BitVec.ofInt 32 i, []⟩] }) ∧
    (0 ≤ i → i < s.count.toNat → i.toNat / 4 < s.slen.toNat → ∃ t, exec (.set i v) s = .next t ∧
      t.unitRead (i.toNat / 4) =
        (s.unitRead (i.toNat / 4) &&& ~~~(0b11#8 <<< (2 * (i.toNat % 4)))) |||
          ((enc2 (clamp3 v)).setWidth 8 <<< (2 * (i.toNat % 4))) ∧
      (∀ k, k ≠ i.toNat / 4 → t.unitRead k = s.unitRead k) ∧
      t.val i.toNat = some (clamp3 v) ∧ t.count = s.count ∧ t.slen = s.slen ∧
      t.rsp = s.rsp ++ [⟨.ok, 0#32, []⟩] ∧
      t.maxUnits = s.maxUnits ∧ t.din = s.din ∧ t.host = s.host)) ∧
  ∀ w : CmdWord, opField w = 0x03#8 → rsvField w ≠ 0#8 → decode w = .illegal (.nonzeroField 0x03#8)

/-- R84: `SET` of any value does exactly what `SET` of the clamped value does, its response included, and a
`SET` past both checks answers `OK` and stores `clamp3 v`. -/
def Obligations.SetClampIsSilent : Prop :=
  ∀ (i v : Int) (s : State), exec (.set i v) s = exec (.set i ((clamp3 v).val : Int)) s ∧
    (Memory.wf s.mem = true → 0 ≤ i → i < s.count.toNat → i.toNat / 4 < s.slen.toNat →
      ∃ t, exec (.set i v) s = .next t ∧ t.rsp = s.rsp ++ [⟨.ok, 0#32, []⟩] ∧
        t.val i.toNat = some (clamp3 v))

/-- R87, the frame of `SET`: where `locate` gives the unit and slot stored to, every other unit and the other
three slots of that unit are as before; where it gives an error, every unit is. `COUNT`, `SLEN` and the rest of
the state are unchanged, and so is every other logical value. -/
def Obligations.SetChangesOnlyItsSlot : Prop :=
  ∀ (i v : Int) (s t : State), Memory.wf s.mem = true → exec (.set i v) s = .next t →
    t.count = s.count ∧ t.slen = s.slen ∧ t.maxUnits = s.maxUnits ∧ t.din = s.din ∧ t.host = s.host ∧
    (∃ r, t.rsp = s.rsp ++ [r]) ∧
    (∀ u c, locate i s = .ok (u, c) → (∀ k, k ≠ u → t.unitAt k = s.unitAt k) ∧
      ∀ c', c' ≠ c → slotField (t.unitRead u) c' = slotField (s.unitRead u) c') ∧
    (∀ e, locate i s = .error e → ∀ k, t.unitAt k = s.unitAt k) ∧
    ∀ j : Nat, (j : Int) ≠ i → t.val j = s.val j

/-- R89: any sequence of commands that builds no buffer completes and leaves `COUNT`, `SLEN` and every filler slot
of the `SLEN` units as they were; and nothing is written from `SLEN` up, where there is no unit. -/
def Obligations.FillerSurvivesAccesses : Prop :=
  ∀ (xs : List HostInput) (s : State), Memory.wf s.mem = true →
    (∀ x ∈ xs, x.keepsBuffer = true) →
    ∃ t, runInputs xs s = .next t ∧ t.count = s.count ∧ t.slen = s.slen ∧
      (∀ (k : Nat) (c : Fin 4), s.isFiller k c = true →
        slotField (t.unitRead k) c = slotField (s.unitRead k) c) ∧
      ∀ k : Nat, s.slen.toNat ≤ k → t.unitRead k = s.unitRead k

/-- R90, R92, R93: the index check and then the storage check report `A` and no value; past both, `DATA` is 2 if
the ge2 bit of the slot is set plus 1 if its odd bit is; a word with `RSV` or `B` nonzero is no `GET`. -/
def Obligations.GetReadsTwoFlags : Prop :=
  (∀ (i : Int) (s : State),
    (i < 0 ∨ s.count.toNat ≤ i → exec (.get i) s =
      .next { s with rsp := s.rsp ++ [⟨.indexOutOfRange, BitVec.ofInt 32 i, []⟩] }) ∧
    (0 ≤ i → i < s.count.toNat → s.slen.toNat ≤ i.toNat / 4 → exec (.get i) s =
      .next { s with rsp := s.rsp ++ [⟨.storageBounds, BitVec.ofInt 32 i, []⟩] }) ∧
    (0 ≤ i → i < s.count.toNat → i.toNat / 4 < s.slen.toNat → exec (.get i) s =
      .next { s with rsp := s.rsp ++ [⟨.ok, BitVec.ofNat 32
        ((if (s.unitRead (i.toNat / 4)).getLsbD (2 * (i.toNat % 4)) then 2 else 0) +
          (if (s.unitRead (i.toNat / 4)).getLsbD (2 * (i.toNat % 4) + 1) then 1 else 0)), []⟩] })) ∧
  ∀ w : CmdWord, opField w = 0x04#8 → (rsvField w ≠ 0#8 ∨ bField w ≠ 0#32) →
    decode w = .illegal (.nonzeroField 0x04#8)

/-- R91 and R98: `GET` and `EXPORT` answer, in every state, one response, and change nothing else. -/
def Obligations.ReadsChangeNothing : Prop :=
  ∀ (i : Int) (s : State),
    (∃ r, exec (.get i) s = .next { s with rsp := s.rsp ++ [r] }) ∧
    ∃ r, exec .exportStorage s = .next { s with rsp := s.rsp ++ [r] }

/-- R94: a `GET` depends on `COUNT`, `SLEN` and the two bits of its own slot only: filler bits, the other slots
and all the rest make no difference to the answer. -/
def Obligations.GetSeesOnlyItsSlot : Prop :=
  ∀ (i : Int) (s s' : State), s.count = s'.count → s.slen = s'.slen →
    (∀ u c, locate i s = .ok (u, c) → slotField (s.unitRead u) c = slotField (s'.unitRead u) c) →
    ∃ r, exec (.get i) s = .next (s.pushRsp r) ∧ exec (.get i) s' = .next (s'.pushRsp r)

/-- The round trip of R95 and Q1: after `SET i, v` at an index with a unit, and then any commands other than
`INIT`, `ADOPT` and `SET` at `i` (illegal words and failing commands among them), `GET i` answers `OK` with
`DATA = clamp3 v`. -/
def Obligations.SetThenGetRoundTrip : Prop :=
  ∀ (i v : Int) (s : State) (xs : List HostInput), s.Inv → (Instr.set i v).WellFormed →
    0 ≤ i → i < s.count.toNat → i.toNat / 4 < s.slen.toNat →
    (∀ x ∈ xs, x.keepsIndex i = true) →
    ∃ t, runInputs (commandOf (.set i v) [] :: xs ++ [commandOf (.get i) []]) s = .next t ∧
      t.rsp.length = s.rsp.length + xs.length + 2 ∧
      t.rsp.getLast? = some ⟨.ok, BitVec.ofNat 32 (clamp3 v).val, []⟩

/-- R95, law 4: `SET i, v1` and then `SET i, v2` leave the state of `SET i, v2` alone. -/
def Obligations.LastWriteWins : Prop :=
  ∀ (i v1 v2 : Int) (s : State), Memory.wf s.mem = true →
    ∃ t1 t2 t, exec (.set i v1) s = .next t1 ∧ exec (.set i v2) t1 = .next t2 ∧
      exec (.set i v2) s = .next t ∧ t2.SameBuffer t

/-- R95, law 5: two `SET`s at different indices commute, within one unit too. -/
def Obligations.SetsAtDifferentIndicesCommute : Prop :=
  ∀ (i j v w : Int) (s : State), Memory.wf s.mem = true → i ≠ j →
    ∃ t1 t2 t1' t2', exec (.set i v) s = .next t1 ∧ exec (.set j w) t1 = .next t2 ∧
      exec (.set j w) s = .next t1' ∧ exec (.set i v) t1' = .next t2' ∧ t2.SameBuffer t2'

/-! ## EXPORT -/

/-- R96, R97: in every state `EXPORT` answers `OK` with `DATA = SLEN` and the `SLEN` units bit for bit, unit 0
first, filler included, and changes nothing; a word with `RSV`, `A` or `B` nonzero is no `EXPORT`. -/
def Obligations.ExportReturnsAllUnits : Prop :=
  (∀ s : State, ∃ p, exec .exportStorage s = .next { s with rsp := s.rsp ++ [⟨.ok, s.slen, p⟩] } ∧
    p.length = s.slen.toNat ∧ ∀ k, p[k]? = s.unitAt k) ∧
  ∀ w : CmdWord, opField w = 0x05#8 → (rsvField w ≠ 0#8 ∨ aField w ≠ 0#32 ∨ bField w ≠ 0#32) →
    decode w = .illegal (.nonzeroField 0x05#8)

/-- R99: adopting an exported payload with the exporting buffer's count gives the same `COUNT`, `SLEN` and units
back on any machine of the same capacity, so that every later `GET` and `EXPORT` answers the same. -/
def Obligations.TransportRoundTrip : Prop :=
  ∀ s s' : State, s.Inv → s'.maxUnits = s.maxUnits →
    ∃ p t, exec .exportStorage s = .next (s.pushRsp ⟨.ok, s.slen, p⟩) ∧
      exec (.adopt s.count.toNat p.length) { s' with din := p } = .next t ∧
      t.rsp = s'.rsp ++ [⟨.ok, 0#32, []⟩] ∧ t.SameBuffer s ∧
      (∀ i : Int, ∃ r, exec (.get i) s = .next (s.pushRsp r) ∧ exec (.get i) t = .next (t.pushRsp r)) ∧
      ∃ r, exec .exportStorage s = .next (s.pushRsp r) ∧ exec .exportStorage t = .next (t.pushRsp r)

/-- The capacity property (R76, Q2): `INIT n` and then `EXPORT` answer `ceil4 n` and that many zero bytes. -/
def Obligations.InitThenExportCapacity : Prop :=
  ∀ (n : Nat) (s : State), n < 2 ^ 32 → n ≤ 4 * s.maxUnits → s.din = [] →
    ∃ t, runInputs [commandOf (.init n) [], commandOf .exportStorage []] s = .next t ∧
      t.rsp = s.rsp ++ [⟨.ok, 0#32, []⟩,
        ⟨.ok, BitVec.ofNat 32 ((n + 3) / 4), List.replicate ((n + 3) / 4) 0x00#8⟩]

/-! ## Errors, and the machine as a whole -/

/-- R109: a command that answers any status but `OK` leaves `COUNT`, `SLEN` and every unit as they were; its
payload is gone, and nothing else has changed. -/
def Obligations.FailedCommandHasNoEffect : Prop :=
  ∀ (s t : State) (w : CmdWord) (p : List Byte) (rest : List HostInput) (r : Response),
    s.host = .command w p :: rest → step s = .next t → t.rsp = s.rsp ++ [r] → r.status ≠ .ok →
    t = { s with host := rest, din := [], rsp := s.rsp ++ [r] }

/-- R59, R127: a command with its payload completes in its step with exactly one response, which carries
exactly `SLEN` bytes (and `DATA = SLEN`) for `EXPORT` and no byte for any other word. -/
def Obligations.OneResponsePerCommand : Prop :=
  ∀ (s : State) (w : CmdWord) (p : List Byte) (rest : List HostInput),
    s.host = .command w p :: rest → p.length = payloadLength w →
    ∃ t r, step s = .next t ∧ t.rsp = s.rsp ++ [r] ∧ t.host = rest ∧
      (decode w = .command .exportStorage → r.status = .ok ∧ r.dout.length = s.slen.toNat ∧ r.data = s.slen) ∧
      (decode w ≠ .command .exportStorage → r.dout = [])

/-- R105: which command can raise which error: none but those of the table, and each of those in some state or by
some word; a reserved opcode is always illegal; and no value makes a `SET` fail. -/
def Obligations.ErrorsOfEachCommand : Prop :=
  (∀ (i : Instr) (s t : State) (r : Response), exec i s = .next t → t.rsp = s.rsp ++ [r] →
    (i.opcode = .init ∨ i.opcode = .adopt → r.status = .ok ∨ r.status = .capacityExceeded) ∧
    (i.opcode = .set ∨ i.opcode = .get →
      r.status = .ok ∨ r.status = .indexOutOfRange ∨ r.status = .storageBounds) ∧
    (i.opcode = .exportStorage → r.status = .ok)) ∧
  (∀ o : Opcode, o = .init ∨ o = .adopt → ∃ (i : Instr) (s t : State) (r : Response), i.opcode = o ∧
    exec i s = .next t ∧ t.rsp = s.rsp ++ [r] ∧ r.status = .capacityExceeded) ∧
  (∀ (o : Opcode) (e : Status), o = .set ∨ o = .get → e = .indexOutOfRange ∨ e = .storageBounds →
    ∃ (i : Instr) (s t : State) (r : Response), i.opcode = o ∧
      exec i s = .next t ∧ t.rsp = s.rsp ++ [r] ∧ r.status = e) ∧
  (∀ o : Opcode, ∃ w : CmdWord, opField w = o.code ∧ decode w = .illegal (.nonzeroField o.code)) ∧
  (∀ w : CmdWord, (∀ o : Opcode, opField w ≠ o.code) → decode w = .illegal (.reservedOpcode (opField w))) ∧
  ∀ (i v : Int) (s : State), ∃ (t t' : State) (r : Response), exec (.set i v) s = .next t ∧
    exec (.set i 0) s = .next t' ∧ t.rsp = s.rsp ++ [r] ∧ t'.rsp = s.rsp ++ [r]

/-- R106: the status a command answers is that of the first check that fails, in the order of the rule:
illegal, capacity on `A`, capacity on `B`, index, storage. -/
def Obligations.FirstFailingCheckIsReported : Prop :=
  ∀ (s t : State) (w : CmdWord) (p : List Byte) (rest : List HostInput) (r : Response),
    s.host = .command w p :: rest → step s = .next t → t.rsp = s.rsp ++ [r] →
    (∀ e, decode w = .illegal e → r.status = .illegalCommand) ∧
    (∀ n, decode w = .command (.init n) →
      r.status = if 4 * s.maxUnits < n then .capacityExceeded else .ok) ∧
    (∀ n len, decode w = .command (.adopt n len) →
      (r.status, r.data) = if 4 * s.maxUnits < n then (.capacityExceeded, aField w)
        else if s.maxUnits < len then (.capacityExceeded, bField w) else (.ok, 0#32)) ∧
    ∀ i, (decode w = .command (.get i) ∨ ∃ v, decode w = .command (.set i v)) →
      r.status = if i < 0 ∨ s.count.toNat ≤ i then .indexOutOfRange
        else if s.slen.toNat ≤ i.toNat / 4 then .storageBounds else .ok

/-- R67: what `DATA` holds for each outcome. -/
def Obligations.DataOfEachOutcome : Prop :=
  ∀ (s t : State) (w : CmdWord) (p : List Byte) (rest : List HostInput) (r : Response),
    s.host = .command w p :: rest → step s = .next t → t.rsp = s.rsp ++ [r] →
    (r.status = .illegalCommand → r.data = (opField w).setWidth 32) ∧
    (r.status = .indexOutOfRange → r.data = aField w) ∧
    (r.status = .storageBounds → r.data = aField w) ∧
    (r.status = .capacityExceeded →
      r.data = if 4 * s.maxUnits < (aField w).toNat then aField w else bField w) ∧
    (r.status = .ok →
      (∀ i, decode w = .command (.get i) →
        ∃ v, s.val i.toNat = some v ∧ r.data = BitVec.ofNat 32 v.val) ∧
      (decode w = .command .exportStorage → r.data = s.slen) ∧
      ((∀ i, decode w ≠ .command (.get i)) → decode w ≠ .command .exportStorage → r.data = 0#32))

/-- R18: `COUNT` changes in no step but a reset or a command that decodes to `INIT` or `ADOPT` and answers `OK`;
and the same holds of `SLEN` (R19). -/
def Obligations.OnlyConstructionChangesCount : Prop :=
  ∀ s t : State, step s = .next t → (t.count ≠ s.count ∨ t.slen ≠ s.slen) →
    ∃ x rest, s.host = x :: rest ∧
      (x = .reset ∨ (∃ w p, x = .resetDuring w p) ∨
        ∃ w p i, x = .command w p ∧ decode w = .command i ∧ (i.opcode = .init ∨ i.opcode = .adopt) ∧
          t.rsp = s.rsp ++ [⟨.ok, 0#32, []⟩])

/-- R16, R110: no command observes an earlier response. Whatever has been answered before, an error or not, an
input answers and does the same. -/
def Obligations.ErrorsAreNotSticky : Prop :=
  ∀ (x : HostInput) (s t : State), takeInput x s = .next t →
    ∃ new, t.rsp = s.rsp ++ new ∧
      ∀ rs, takeInput x { s with rsp := rs } = .next { t with rsp := rs ++ new }

/-- Every command completes in every state, but for an `ADOPT` whose payload is not on `din` (R127; the stop is
the model's choice, log entry 4). No command and no step is refused. -/
def Obligations.OnlyMissingPayloadStops : Prop :=
  (∀ (i : Instr) (s : State), (∃ t, exec i s = .next t) ∨
    (exec i s = .fault .payloadLength ∧ ∃ n len, i = .adopt n len ∧ s.din.length ≠ len)) ∧
  ∀ (s : State) (r : Refusal), step s ≠ .refused r

/-- R122: on R28's structure, a step on a command with its payload does and answers what the whole-command
function of R122 says. -/
def Obligations.StepRefinesWholeCommand : Prop :=
  ∀ (s : State) (w : CmdWord) (p : List Byte) (rest : List HostInput), s.Inv →
    s.host = .command w p :: rest → p.length = payloadLength w →
    ∃ t, step s = .next t ∧ t.host = rest ∧
      t.abstract = (wholeStep s.maxUnits s.abstract w p).1 ∧
      t.rsp = s.rsp ++ [(wholeStep s.maxUnits s.abstract w p).2]

/-- R68, R69: a line with every operand in its stated range assembles to a word that decodes to that command,
with the payload that the word asks for; a line with an operand out of range does not assemble. -/
def Obligations.AssemblerEncodesInRange : Prop :=
  (∀ n : Int, (0 ≤ n ∧ n < 2 ^ 32 → ∃ w, assemble (.init n) = some (.command w []) ∧
      decode w = .command (.init n.toNat)) ∧ (¬(0 ≤ n ∧ n < 2 ^ 32) → assemble (.init n) = none)) ∧
  (∀ (n : Int) (bs : List Int),
    (0 ≤ n ∧ n < 2 ^ 32 ∧ bs.length < 2 ^ 32 ∧ (∀ b ∈ bs, 0 ≤ b ∧ b < 256) →
      ∃ w p, assemble (.adopt n bs) = some (.command w p) ∧ decode w = .command (.adopt n.toNat bs.length) ∧
        p.length = payloadLength w ∧ p.map (fun b => (b.toNat : Int)) = bs) ∧
    (¬(0 ≤ n ∧ n < 2 ^ 32 ∧ bs.length < 2 ^ 32 ∧ ∀ b ∈ bs, 0 ≤ b ∧ b < 256) →
      assemble (.adopt n bs) = none)) ∧
  (∀ i v : Int, (-2 ^ 31 ≤ i ∧ i < 2 ^ 31 ∧ -2 ^ 31 ≤ v ∧ v < 2 ^ 31 →
      ∃ w, assemble (.set i v) = some (.command w []) ∧ decode w = .command (.set i v)) ∧
    (¬(-2 ^ 31 ≤ i ∧ i < 2 ^ 31 ∧ -2 ^ 31 ≤ v ∧ v < 2 ^ 31) → assemble (.set i v) = none)) ∧
  (∀ i : Int, (-2 ^ 31 ≤ i ∧ i < 2 ^ 31 →
      ∃ w, assemble (.get i) = some (.command w []) ∧ decode w = .command (.get i)) ∧
    (¬(-2 ^ 31 ≤ i ∧ i < 2 ^ 31) → assemble (.get i) = none)) ∧
  (∃ w, assemble .exportStorage = some (.command w []) ∧ decode w = .command .exportStorage) ∧
  ∀ n : Int, (0 ≤ n ∧ n < 2 ^ 80 → assemble (.word80 n) = some (.command (BitVec.ofNat 80 n.toNat) [])) ∧
    (¬(0 ≤ n ∧ n < 2 ^ 80) → assemble (.word80 n) = none)
end

