-- ==== Sys2Proof/Laws/Decode.lean ====
section
/-! SUPPORT. The fields of a command word (R52), what selecting a row of R61 means for them, and what an
operand's raw field reads back as (R57). -/

namespace Sys2Proof

@[simp] theorem opField_packCommand (op rsv : BitVec 8) (a b : Word) :
    opField (packCommand op rsv a b) = op := by
  unfold opField packCommand
  exact BitVec.extractLsb'_append_eq_right (a := b ++ a ++ rsv) (b := op)

@[simp] theorem rsvField_packCommand (op rsv : BitVec 8) (a b : Word) :
    rsvField (packCommand op rsv a b) = rsv := by
  unfold rsvField packCommand
  rw [BitVec.extractLsb'_append_eq_of_le (by omega)]
  exact BitVec.extractLsb'_append_eq_right (a := b ++ a) (b := rsv)

@[simp] theorem aField_packCommand (op rsv : BitVec 8) (a b : Word) :
    aField (packCommand op rsv a b) = a := by
  unfold aField packCommand
  rw [BitVec.extractLsb'_append_eq_of_le (by omega), BitVec.extractLsb'_append_eq_of_le (by omega)]
  exact BitVec.extractLsb'_append_eq_right (a := b) (b := a)

@[simp] theorem bField_packCommand (op rsv : BitVec 8) (a b : Word) :
    bField (packCommand op rsv a b) = b := by
  unfold bField packCommand
  rw [BitVec.extractLsb'_append_eq_of_le (by omega), BitVec.extractLsb'_append_eq_of_le (by omega),
    BitVec.extractLsb'_append_eq_of_le (by omega)]
  exact BitVec.extractLsb'_eq_self

/-- A command word is its four fields (R52). -/
theorem cmdWord_ext {w w' : CmdWord} (hop : opField w = opField w') (hrsv : rsvField w = rsvField w')
    (ha : aField w = aField w') (hb : bField w = bField w') : w = w' := by
  have key : ∀ {n lo : Nat}, w.extractLsb' lo n = w'.extractLsb' lo n →
      ∀ i, lo ≤ i → i < lo + n → w.getLsbD i = w'.getLsbD i := by
    intro n lo h i h1 h2
    have := congrArg (fun x : BitVec n => x.getLsbD (i - lo)) h
    simpa [BitVec.getLsbD_extractLsb', show i - lo < n by omega, show lo + (i - lo) = i by omega] using this
  refine BitVec.eq_of_getLsbD_eq fun i hi => ?_
  rcases Nat.lt_or_ge i 8 with h | h
  · exact key hop i (by omega) (by omega)
  rcases Nat.lt_or_ge i 16 with h | h
  · exact key hrsv i (by omega) (by omega)
  rcases Nat.lt_or_ge i 48 with h | h
  · exact key ha i (by omega) (by omega)
  · exact key hb i (by omega) (by omega)

theorem opField_and (w m : CmdWord) : opField (w &&& m) = opField w &&& opField m :=
  BitVec.extractLsb'_and
theorem rsvField_and (w m : CmdWord) : rsvField (w &&& m) = rsvField w &&& rsvField m :=
  BitVec.extractLsb'_and
theorem aField_and (w m : CmdWord) : aField (w &&& m) = aField w &&& aField m :=
  BitVec.extractLsb'_and
theorem bField_and (w m : CmdWord) : bField (w &&& m) = bField w &&& bField m :=
  BitVec.extractLsb'_and

/-- Equality of command words, field by field. -/
theorem cmdWord_eq_iff {w w' : CmdWord} : w = w' ↔
    opField w = opField w' ∧ rsvField w = rsvField w' ∧ aField w = aField w' ∧ bField w = bField w' :=
  ⟨fun h => by subst h; exact ⟨rfl, rfl, rfl, rfl⟩, fun h => cmdWord_ext h.1 h.2.1 h.2.2.1 h.2.2.2⟩

/-- The fields of the row's two words (R61), for the lemmas below. -/
theorem Opcode.row_fields (o : Opcode) :
    opField o.mask = BitVec.allOnes 8 ∧ rsvField o.mask = BitVec.allOnes 8 ∧
      opField o.matchWord = o.code ∧ rsvField o.matchWord = 0#8 ∧
      aField o.matchWord = 0#32 ∧ bField o.matchWord = 0#32 := by
  cases o <;> decide

/-- A word selects a row exactly when its opcode is the row's and every must-be-zero field is zero (R61). -/
theorem Opcode.selects_iff (o : Opcode) (w : CmdWord) : o.selects w = true ↔
    opField w = o.code ∧ rsvField w = 0#8 ∧ aField w &&& aField o.mask = 0#32 ∧
      bField w &&& bField o.mask = 0#32 := by
  obtain ⟨h1, h2, h3, h4, h5, h6⟩ := o.row_fields
  rw [Opcode.selects, beq_iff_eq, cmdWord_eq_iff, opField_and, rsvField_and, aField_and, bField_and,
    h1, h2, h3, h4, h5, h6, BitVec.and_allOnes, BitVec.and_allOnes]

/-- The must-be-zero operand fields of a word that selects a row (R61). -/
theorem Opcode.selects_zero {o : Opcode} {w : CmdWord} (h : o.selects w = true) :
    (o = .init ∨ o = .get ∨ o = .exportStorage → bField w = 0#32) ∧
      (o = .exportStorage → aField w = 0#32) := by
  obtain ⟨-, -, ha, hb⟩ := (o.selects_iff w).mp h
  refine ⟨?_, ?_⟩
  · rintro (rfl | rfl | rfl) <;>
      exact (BitVec.and_allOnes (x := bField w)).symm.trans hb
  · rintro rfl
    exact (BitVec.and_allOnes (x := aField w)).symm.trans ha

/-- The opcode map read both ways (R60). -/
theorem Opcode.ofCode_eq_some {op : BitVec 8} {o : Opcode} : Opcode.ofCode op = some o ↔ op = o.code := by
  constructor
  · intro h
    unfold Opcode.ofCode at h
    repeat' split at h
    all_goals first | (obtain rfl := Option.some.inj h; assumption) | exact absurd h (by simp)
  · rintro rfl; cases o <;> rfl

theorem Opcode.code_inj {o o' : Opcode} (h : o.code = o'.code) : o = o' := by
  have := Opcode.ofCode_eq_some.mpr h
  rw [Opcode.ofCode_eq_some.mpr rfl] at this
  exact Option.some.inj this

/-- A word decodes to a command exactly when it selects that command's row (R62). -/
theorem decode_eq_command {w : CmdWord} {i : Instr} :
    decode w = .command i ↔ ∃ o : Opcode, o.selects w = true ∧ o.operands w = i := by
  constructor
  · intro h
    unfold decode at h
    split at h
    · exact absurd h (by simp)
    · next o _ =>
      split at h
      · next hs => exact ⟨o, hs, Decoded.command.inj h⟩
      · exact absurd h (by simp)
  · rintro ⟨o, hs, rfl⟩
    have ho := Opcode.ofCode_eq_some.mpr ((o.selects_iff w).mp hs).1
    simp [decode, ho, hs]

/-- A word with an assigned opcode that does not select its row is rejected for a nonzero field (R62). -/
theorem decode_of_not_selects {w : CmdWord} {o : Opcode} (ho : opField w = o.code)
    (hs : o.selects w = false) : decode w = .illegal (.nonzeroField o.code) := by
  unfold decode
  rw [Opcode.ofCode_eq_some.mpr ho, ho]
  simp [hs]

/-- The rejected word's opcode is what the rejection carries (R62). -/
theorem decode_illegal_op {w : CmdWord} {r : Reject} (h : decode w = .illegal r) : r.op = opField w := by
  unfold decode at h
  split at h
  · rw [← Decoded.illegal.inj h]; rfl
  · split at h
    · exact absurd h (by simp)
    · rw [← Decoded.illegal.inj h]; rfl

theorem Opcode.operands_opcode (o : Opcode) (w : CmdWord) : (o.operands w).opcode = o := by
  cases o <;> rfl

/-- A decoded command's word has its opcode and `RSV = 0`. -/
theorem decode_command_fields {w : CmdWord} {i : Instr} (h : decode w = .command i) :
    opField w = i.opcode.code ∧ rsvField w = 0#8 := by
  obtain ⟨o, hs, rfl⟩ := decode_eq_command.mp h
  have := (o.selects_iff w).mp hs
  exact ⟨by rw [o.operands_opcode]; exact this.1, this.2.1⟩

/-- An unsigned operand in range reads back from its field (R57). -/
theorem unsignedField_toNat {n : Nat} (h : fitsUnsigned n = true) : (unsignedField n).toNat = n := by
  simp only [fitsUnsigned, decide_eq_true_eq] at h
  rw [unsignedField, BitVec.toNat_ofNat, Nat.mod_eq_of_lt h]

theorem unsignedField_of_toNat (a : Word) : unsignedField a.toNat = a := by simp [unsignedField]

/-- A signed operand in range reads back from its field (R57). -/
theorem signedField_toInt {v : Int} (h : fitsSigned v = true) : (signedField v).toInt = v := by
  simp only [fitsSigned, Bool.and_eq_true, decide_eq_true_eq] at h
  rw [signedField, BitVec.toInt_ofInt]
  exact Int.bmod_eq_of_le (by omega) (by omega)

theorem signedField_of_toInt (a : Word) : signedField a.toInt = a := by simp [signedField]

theorem fitsUnsigned_toNat (a : Word) : fitsUnsigned a.toNat = true := by
  simpa [fitsUnsigned] using a.isLt

theorem fitsSigned_toInt (a : Word) : fitsSigned a.toInt = true := by
  have h1 := BitVec.le_toInt a
  have h2 := BitVec.toInt_lt (x := a)
  simp only [fitsSigned, Bool.and_eq_true, decide_eq_true_eq]
  omega

end Sys2Proof
end

