-- ==== Sys2Proof/Laws/Flags.lean ====
section
/-! SUPPORT. The slot fields of a unit (R10, R33): reading back a written field, leaving the others alone,
and a unit is known by its four fields. -/

namespace Sys2Proof.Machine

theorem dec2_enc2 (v : Fin 4) : dec2 (enc2 v) = v := by
  revert v; decide

/-- The clamp by cases, as integers (R10). -/
theorem clamp3_cases (v : Int) :
    (v < 0 ∧ clamp3 v = 0) ∨ (3 < v ∧ clamp3 v = 3) ∨ (0 ≤ v ∧ v ≤ 3 ∧ ((clamp3 v).val : Int) = v) := by
  unfold clamp3
  by_cases h0 : v < 0
  · simp [h0]
  · by_cases h3 : 3 < v
    · simp [h0, h3]
    · have : v.toNat < 4 := by omega
      simp only [h0, h3, if_false, Fin.ofNat, Nat.mod_eq_of_lt this]
      omega

/-- A clamped value is clamped to itself. -/
theorem clamp3_clamp3 (v : Int) : clamp3 ((clamp3 v).val : Int) = clamp3 v := by
  have key : ∀ c : Fin 4, clamp3 (c.val : Int) = c := by decide
  exact key _

theorem slotField_putSlotField (b : Byte) (s : Fin 4) (f : BitVec 2) :
    slotField (putSlotField b s f) s = f := by
  unfold slotField putSlotField
  ext i hi
  fin_cases s <;> interval_cases i <;> simp

theorem slotField_putSlotField_ne (b : Byte) {s t : Fin 4} (h : t ≠ s) (f : BitVec 2) :
    slotField (putSlotField b s f) t = slotField b t := by
  unfold slotField putSlotField
  ext i hi
  fin_cases s <;> fin_cases t <;> first | exact absurd rfl h | (interval_cases i <;> simp)

/-- A unit is known by its four slot fields. -/
theorem byte_ext_slotField {b c : Byte} (h : ∀ s, slotField b s = slotField c s) : b = c := by
  ext i hi
  have key := fun (s : Fin 4) (j : Nat) (hj : j < 2) =>
    congrArg (fun f : BitVec 2 => f.getLsbD j) (h s)
  simp only [slotField, BitVec.getLsbD_extractLsb'] at key
  have hs := key ⟨i / 2, by omega⟩ (i % 2) (by omega)
  have e : 2 * (i / 2) + i % 2 = i := by omega
  have hd : i % 2 < 2 := by omega
  simpa [e, hd, BitVec.getLsbD_eq_getElem hi] using hs

/-- Reading a slot of a unit after a write to one of them. -/
theorem slotField_putSlotField_if (b : Byte) (s t : Fin 4) (f : BitVec 2) :
    slotField (putSlotField b s f) t = if t = s then f else slotField b t := by
  split
  · next h => rw [h, slotField_putSlotField]
  · next h => exact slotField_putSlotField_ne b h f

/-- Writing back the field a slot holds leaves the unit unchanged (R88). -/
theorem putSlotField_self (b : Byte) (s : Fin 4) : putSlotField b s (slotField b s) = b := by
  refine byte_ext_slotField fun t => ?_
  rw [slotField_putSlotField_if]; split
  · next h => rw [h]
  · rfl

end Sys2Proof.Machine
end

