-- ==== Sys2Proof/Laws/State.lean ====
section
/-! SUPPORT. One lemma per field per update of `State`, so that no proof unfolds a record update. -/

namespace Sys2Proof.Machine

@[simp] theorem State.setCount_maxUnits (s : State) (v : Word) : (s.setCount v).maxUnits = s.maxUnits := rfl
@[simp] theorem State.setCount_count (s : State) (v : Word) : (s.setCount v).count = v := rfl
@[simp] theorem State.setCount_slen (s : State) (v : Word) : (s.setCount v).slen = s.slen := rfl
@[simp] theorem State.setCount_mem (s : State) (v : Word) : (s.setCount v).mem = s.mem := rfl
@[simp] theorem State.setCount_din (s : State) (v : Word) : (s.setCount v).din = s.din := rfl
@[simp] theorem State.setCount_host (s : State) (v : Word) : (s.setCount v).host = s.host := rfl
@[simp] theorem State.setCount_rsp (s : State) (v : Word) : (s.setCount v).rsp = s.rsp := rfl

@[simp] theorem State.setSlen_maxUnits (s : State) (v : Word) : (s.setSlen v).maxUnits = s.maxUnits := rfl
@[simp] theorem State.setSlen_count (s : State) (v : Word) : (s.setSlen v).count = s.count := rfl
@[simp] theorem State.setSlen_slen (s : State) (v : Word) : (s.setSlen v).slen = v := rfl
@[simp] theorem State.setSlen_mem (s : State) (v : Word) : (s.setSlen v).mem = s.mem := rfl
@[simp] theorem State.setSlen_din (s : State) (v : Word) : (s.setSlen v).din = s.din := rfl
@[simp] theorem State.setSlen_host (s : State) (v : Word) : (s.setSlen v).host = s.host := rfl
@[simp] theorem State.setSlen_rsp (s : State) (v : Word) : (s.setSlen v).rsp = s.rsp := rfl

@[simp] theorem State.setMem_maxUnits (s : State) (m : Memory) : (s.setMem m).maxUnits = s.maxUnits := rfl
@[simp] theorem State.setMem_count (s : State) (m : Memory) : (s.setMem m).count = s.count := rfl
@[simp] theorem State.setMem_slen (s : State) (m : Memory) : (s.setMem m).slen = s.slen := rfl
@[simp] theorem State.setMem_mem (s : State) (m : Memory) : (s.setMem m).mem = m := rfl
@[simp] theorem State.setMem_din (s : State) (m : Memory) : (s.setMem m).din = s.din := rfl
@[simp] theorem State.setMem_host (s : State) (m : Memory) : (s.setMem m).host = s.host := rfl
@[simp] theorem State.setMem_rsp (s : State) (m : Memory) : (s.setMem m).rsp = s.rsp := rfl

@[simp] theorem State.setDin_maxUnits (s : State) (p : List Byte) : (s.setDin p).maxUnits = s.maxUnits := rfl
@[simp] theorem State.setDin_count (s : State) (p : List Byte) : (s.setDin p).count = s.count := rfl
@[simp] theorem State.setDin_slen (s : State) (p : List Byte) : (s.setDin p).slen = s.slen := rfl
@[simp] theorem State.setDin_mem (s : State) (p : List Byte) : (s.setDin p).mem = s.mem := rfl
@[simp] theorem State.setDin_din (s : State) (p : List Byte) : (s.setDin p).din = p := rfl
@[simp] theorem State.setDin_host (s : State) (p : List Byte) : (s.setDin p).host = s.host := rfl
@[simp] theorem State.setDin_rsp (s : State) (p : List Byte) : (s.setDin p).rsp = s.rsp := rfl

@[simp] theorem State.setHost_maxUnits (s : State) (h : List HostInput) : (s.setHost h).maxUnits = s.maxUnits := rfl
@[simp] theorem State.setHost_count (s : State) (h : List HostInput) : (s.setHost h).count = s.count := rfl
@[simp] theorem State.setHost_slen (s : State) (h : List HostInput) : (s.setHost h).slen = s.slen := rfl
@[simp] theorem State.setHost_mem (s : State) (h : List HostInput) : (s.setHost h).mem = s.mem := rfl
@[simp] theorem State.setHost_din (s : State) (h : List HostInput) : (s.setHost h).din = s.din := rfl
@[simp] theorem State.setHost_host (s : State) (h : List HostInput) : (s.setHost h).host = h := rfl
@[simp] theorem State.setHost_rsp (s : State) (h : List HostInput) : (s.setHost h).rsp = s.rsp := rfl

@[simp] theorem State.pushRsp_maxUnits (s : State) (r : Response) : (s.pushRsp r).maxUnits = s.maxUnits := rfl
@[simp] theorem State.pushRsp_count (s : State) (r : Response) : (s.pushRsp r).count = s.count := rfl
@[simp] theorem State.pushRsp_slen (s : State) (r : Response) : (s.pushRsp r).slen = s.slen := rfl
@[simp] theorem State.pushRsp_mem (s : State) (r : Response) : (s.pushRsp r).mem = s.mem := rfl
@[simp] theorem State.pushRsp_din (s : State) (r : Response) : (s.pushRsp r).din = s.din := rfl
@[simp] theorem State.pushRsp_host (s : State) (r : Response) : (s.pushRsp r).host = s.host := rfl
@[simp] theorem State.pushRsp_rsp (s : State) (r : Response) : (s.pushRsp r).rsp = s.rsp ++ [r] := rfl

end Sys2Proof.Machine
end

