-- ==== Sys2Proof/Laws/Memory.lean ====
section
/-! SUPPORT. The store as a list of cells: read after write, the canonical form is kept by every operation,
and two stores in canonical form that read alike are equal. -/

namespace Sys2Proof.Machine

theorem Memory.wfFrom_cons {lo a : Nat} {b : Byte} {m : Memory} :
    Memory.wfFrom lo ((a, b) :: m) = true ↔
      lo ≤ a ∧ b ≠ Memory.unlisted ∧ Memory.wfFrom (a + 1) m = true := by
  simp [Memory.wfFrom, and_assoc]

theorem Memory.wfFrom_mono {lo lo' : Nat} {m : Memory} (h : lo' ≤ lo) (hm : Memory.wfFrom lo m = true) :
    Memory.wfFrom lo' m = true := by
  cases m with
  | nil => rfl
  | cons c m => rw [Memory.wfFrom_cons] at hm ⊢; exact ⟨by omega, hm.2⟩

/-- Below its first possible address a store in canonical form lists nothing. -/
theorem Memory.read_of_lt {lo k : Nat} {m : Memory} (hm : Memory.wfFrom lo m = true) (h : k < lo) :
    Memory.read m k = Memory.unlisted := by
  induction m generalizing lo with
  | nil => rfl
  | cons c m ih =>
    obtain ⟨a, b⟩ := c
    rw [Memory.wfFrom_cons] at hm
    rw [Memory.read, if_neg (by omega)]
    exact ih hm.2.2 (by omega)

theorem Memory.read_cell_append (k : Nat) (b : Byte) (m : Memory) (j : Nat)
    (hk : Memory.read m k = Memory.unlisted) :
    Memory.read (Memory.cell k b ++ m) j = if j = k then b else Memory.read m j := by
  unfold Memory.cell
  by_cases hb : b = Memory.unlisted
  · by_cases hj : j = k <;> simp [hb, hj, hk]
  · by_cases hj : j = k
    · simp [hb, hj, Memory.read]
    · simp [hb, hj, Memory.read, Ne.symm hj]

/-- Reading any address after a write. -/
theorem Memory.read_write {lo : Nat} {m : Memory} (hm : Memory.wfFrom lo m = true) (k j : Nat) (b : Byte) :
    Memory.read (Memory.write m k b) j = if j = k then b else Memory.read m j := by
  induction m generalizing lo with
  | nil =>
    have := Memory.read_cell_append k b [] j rfl
    simpa [Memory.write] using this
  | cons c m ih =>
    obtain ⟨a, c⟩ := c
    have hm' := hm
    rw [Memory.wfFrom_cons] at hm'
    unfold Memory.write
    by_cases h1 : k < a
    · rw [if_pos h1, Memory.read_cell_append]
      exact Memory.read_of_lt (Memory.wfFrom_cons.mpr ⟨le_rfl, hm'.2⟩) h1
    · rw [if_neg h1]
      by_cases h2 : k = a
      · rw [if_pos h2, Memory.read_cell_append _ _ _ _ (Memory.read_of_lt hm'.2.2 (by omega))]
        by_cases hj : j = k
        · simp [hj]
        · simp [hj, Memory.read, h2 ▸ Ne.symm hj]
      · rw [if_neg h2, Memory.read, Memory.read, ih hm'.2.2]
        by_cases haj : a = j
        · have : j ≠ k := by omega
          simp [haj, this]
        · simp [haj]

theorem Memory.wfFrom_cell_append {lo k : Nat} {m : Memory} (h : lo ≤ k) (b : Byte)
    (hm : Memory.wfFrom (k + 1) m = true) : Memory.wfFrom lo (Memory.cell k b ++ m) = true := by
  unfold Memory.cell
  split
  · simpa using Memory.wfFrom_mono (by omega) hm
  · next hb => exact Memory.wfFrom_cons.mpr ⟨h, hb, hm⟩

/-- A write keeps the canonical form. -/
theorem Memory.wfFrom_write {lo k : Nat} {m : Memory} (hm : Memory.wfFrom lo m = true) (h : lo ≤ k)
    (b : Byte) : Memory.wfFrom lo (Memory.write m k b) = true := by
  induction m generalizing lo with
  | nil => simpa [Memory.write] using Memory.wfFrom_cell_append h b (m := []) rfl
  | cons c m ih =>
    obtain ⟨a, c⟩ := c
    have hm' := hm
    rw [Memory.wfFrom_cons] at hm'
    unfold Memory.write
    by_cases h1 : k < a
    · rw [if_pos h1]
      exact Memory.wfFrom_cell_append h b (Memory.wfFrom_cons.mpr ⟨h1, hm'.2⟩)
    · rw [if_neg h1]
      by_cases h2 : k = a
      · rw [if_pos h2]
        exact Memory.wfFrom_cell_append h b (h2 ▸ hm'.2.2)
      · rw [if_neg h2]
        exact Memory.wfFrom_cons.mpr ⟨hm'.1, hm'.2.1, ih hm'.2.2 (by omega)⟩

theorem Memory.wf_write {m : Memory} (hm : Memory.wf m = true) (k : Nat) (b : Byte) :
    Memory.wf (Memory.write m k b) = true := Memory.wfFrom_write hm (Nat.zero_le k) b

/-- A write lists no address outside the store's own and the written one. -/
theorem Memory.below_write {n k : Nat} {m : Memory} (hm : Memory.below n m = true) (h : k < n) (b : Byte) :
    Memory.below n (Memory.write m k b) = true := by
  have cell : Memory.below n (Memory.cell k b) = true := by
    unfold Memory.cell; split <;> simp [Memory.below, h]
  induction m with
  | nil => simpa [Memory.write] using cell
  | cons c m ih =>
    obtain ⟨a, c⟩ := c
    simp only [Memory.below, List.all_cons, Bool.and_eq_true] at hm ih cell ⊢
    unfold Memory.write
    split
    · simp only [List.all_append, List.all_cons, Bool.and_eq_true]; exact ⟨cell, hm⟩
    · split
      · simp only [List.all_append, Bool.and_eq_true]; exact ⟨cell, hm.2⟩
      · simp only [List.all_cons, Bool.and_eq_true]; exact ⟨hm.1, ih hm.2⟩

/-- Equal reads make equal stores: the form is canonical. -/
theorem Memory.wfFrom_ext {lo : Nat} {m m' : Memory} (hm : Memory.wfFrom lo m = true)
    (hm' : Memory.wfFrom lo m' = true) (h : ∀ k, Memory.read m k = Memory.read m' k) : m = m' := by
  induction m generalizing lo m' with
  | nil =>
    cases m' with
    | nil => rfl
    | cons c m' =>
      rw [Memory.wfFrom_cons] at hm'
      exact absurd (by simpa [Memory.read] using (h c.1).symm) hm'.2.1
  | cons c m ih =>
    obtain ⟨a, b⟩ := c
    have h1 := Memory.wfFrom_cons.mp hm
    cases m' with
    | nil => exact absurd (by simpa [Memory.read] using h a) h1.2.1
    | cons c' m' =>
      obtain ⟨a', b'⟩ := c'
      have h2 := Memory.wfFrom_cons.mp hm'
      have ha : a = a' := by
        rcases Nat.lt_trichotomy a a' with hlt | heq | hgt
        · have := h a
          rw [Memory.read_of_lt (Memory.wfFrom_cons.mpr ⟨le_rfl, h2.2⟩) hlt] at this
          exact absurd (by simpa [Memory.read] using this) h1.2.1
        · exact heq
        · have := h a'
          rw [Memory.read_of_lt (Memory.wfFrom_cons.mpr ⟨le_rfl, h1.2⟩) hgt] at this
          exact absurd (by simpa [Memory.read] using this.symm) h2.2.1
      subst ha
      have hb : b = b' := by simpa [Memory.read] using h a
      subst hb
      congr 1
      refine ih h1.2.2 h2.2.2 fun k => ?_
      by_cases hk : a = k
      · rw [← hk, Memory.read_of_lt h1.2.2 (by omega), Memory.read_of_lt h2.2.2 (by omega)]
      · simpa [Memory.read, hk] using h k

theorem Memory.wf_ext {m m' : Memory} (hm : Memory.wf m = true) (hm' : Memory.wf m' = true)
    (h : ∀ k, Memory.read m k = Memory.read m' k) : m = m' := Memory.wfFrom_ext hm hm' h

/-- At or above its bound a store lists nothing. -/
theorem Memory.read_of_below {n k : Nat} {m : Memory} (hm : Memory.below n m = true) (h : n ≤ k) :
    Memory.read m k = Memory.unlisted := by
  induction m with
  | nil => rfl
  | cons c m ih =>
    simp only [Memory.below, List.all_cons, Bool.and_eq_true, decide_eq_true_eq] at hm ih
    rw [Memory.read, if_neg (by omega)]
    exact ih hm.2

/-- Writing a sequence keeps the canonical form. -/
theorem Memory.wf_writeAll {m : Memory} (hm : Memory.wf m = true) (k : Nat) (bs : List Byte) :
    Memory.wf (Memory.writeAll m k bs) = true := by
  induction bs generalizing m k with
  | nil => exact hm
  | cons b bs ih => exact ih (Memory.wf_write hm k b) (k + 1)

theorem Memory.below_writeAll {n k : Nat} {m : Memory} (hm : Memory.below n m = true) (bs : List Byte)
    (h : k + bs.length ≤ n) : Memory.below n (Memory.writeAll m k bs) = true := by
  induction bs generalizing m k with
  | nil => exact hm
  | cons b bs ih =>
    rw [List.length_cons] at h
    exact ih (Memory.below_write hm (by omega) b) (by omega)

/-- Reading any address after a sequence was written from `k` up. -/
theorem Memory.read_writeAll {m : Memory} (hm : Memory.wf m = true) (k j : Nat) (bs : List Byte) :
    Memory.read (Memory.writeAll m k bs) j =
      if k ≤ j then (bs[j - k]?).getD (Memory.read m j) else Memory.read m j := by
  induction bs generalizing m k with
  | nil => simp [Memory.writeAll]
  | cons b bs ih =>
    rw [Memory.writeAll, ih (Memory.wf_write hm k b), Memory.read_write hm]
    rcases Nat.lt_trichotomy j k with hlt | heq | hgt
    · rw [if_neg (by omega), if_neg (by omega), if_neg (by omega)]
    · subst heq; simp
    · have e : j - k = (j - (k + 1)) + 1 := by omega
      rw [if_pos (by omega), if_neg (by omega), if_pos (by omega), e, List.getElem?_cons_succ]

/-- A fresh store with a sequence written from unit 0 up. -/
theorem Memory.read_writeAll_nil (j : Nat) (bs : List Byte) :
    Memory.read (Memory.writeAll [] 0 bs) j = (bs[j]?).getD Memory.unlisted := by
  rw [Memory.read_writeAll rfl]; simp [Memory.read]

end Sys2Proof.Machine
end

