-- ==== Sys2Proof/Laws/Ops.lean ====
section
/-! SUPPORT. What each shared operation does, said once: the port operations, construction, unit access,
reset, and the logical index. -/

namespace Sys2Proof.Machine

@[simp] theorem respond_eq (st : Status) (d : Word) (p : List Byte) (s : State) :
    respond st d p s = s.pushRsp ⟨st, d, p⟩ := rfl

@[simp] theorem raise_eq (e : Status) (d : Word) (s : State) : raise e d s = s.pushRsp ⟨e, d, []⟩ := rfl

@[simp] theorem consumePayload_eq (s : State) : consumePayload s = s.setDin [] := rfl

@[simp] theorem unitWrite_eq (s : State) (k : Nat) (b : Byte) :
    s.unitWrite k b = s.setMem (Memory.write s.mem k b) := rfl

@[simp] theorem illegalCommand_eq (r : Reject) (s : State) :
    illegalCommand r s = (s.setDin []).pushRsp ⟨.illegalCommand, r.op.setWidth 32, []⟩ := rfl

@[simp] theorem applyReset_eq (s : State) :
    applyReset s = (((s.setMem []).setSlen 0#32).setCount 0#32).setDin [] := rfl

@[simp] theorem construct_eq (n : Nat) (bs : List Byte) (s : State) :
    construct n bs s = ((s.setMem (Memory.writeAll [] 0 bs)).setSlen (BitVec.ofNat 32 bs.length)).setCount
      (BitVec.ofNat 32 n) := rfl

/-- A state is known by its fields. -/
theorem State.ext_fields {s t : State} (h1 : s.maxUnits = t.maxUnits) (h2 : s.count = t.count)
    (h3 : s.slen = t.slen) (h4 : s.mem = t.mem) (h5 : s.din = t.din) (h6 : s.host = t.host)
    (h7 : s.rsp = t.rsp) : s = t := by
  cases s; cases t; simp_all

/-- The units `0 .. SLEN-1` are as many as `SLEN` says (R96). -/
@[simp] theorem State.units_length (s : State) : s.units.length = s.slen.toNat := by
  simp [State.units]

/-- Unit `k` of the export is unit `k` of the address space (R37, R96). -/
theorem State.units_getElem? (s : State) (k : Nat) : s.units[k]? = s.unitAt k := by
  unfold State.units State.unitAt
  by_cases h : k < s.slen.toNat <;> simp [h]

/-- Two machines with the same `SLEN` and store export the same units. -/
theorem State.units_congr {s t : State} (h : s.slen = t.slen) (hm : s.mem = t.mem) : s.units = t.units := by
  unfold State.units State.unitRead; rw [h, hm]

/-- After construction the address space holds exactly the given bytes (R74, R77). -/
theorem unitAt_construct (n : Nat) {bs : List Byte} (h : bs.length < 2 ^ 32) (s : State) (k : Nat) :
    (construct n bs s).unitAt k = bs[k]? := by
  simp only [State.unitAt, construct_eq, State.setCount_slen, State.setSlen_slen, State.unitRead,
    State.setCount_mem, State.setSlen_mem, State.setMem_mem, Memory.read_writeAll_nil,
    BitVec.toNat_ofNat, Nat.mod_eq_of_lt h]
  by_cases hk : k < bs.length <;> simp [hk]

/-- After construction the export is the given bytes (R96). -/
theorem units_construct (n : Nat) {bs : List Byte} (h : bs.length < 2 ^ 32) (s : State) :
    (construct n bs s).units = bs :=
  List.ext_getElem? fun k => by rw [State.units_getElem?, unitAt_construct n h]

/-- The construction of a buffer that has been exported gives its store back (R99). -/
theorem writeAll_units {s : State} (hwf : Memory.wf s.mem = true)
    (hb : Memory.below s.slen.toNat s.mem = true) : Memory.writeAll [] 0 s.units = s.mem := by
  refine Memory.wf_ext (Memory.wf_writeAll rfl 0 _) hwf fun k => ?_
  rw [Memory.read_writeAll_nil, State.units_getElem?, State.unitAt]
  by_cases h : k < s.slen.toNat
  · simp [h, State.unitRead]
  · simp [h, Memory.read_of_below hb (Nat.le_of_not_lt h)]

/-- Reading a unit after a unit was written (R9). -/
theorem unitRead_unitWrite {s : State} (hm : Memory.wf s.mem = true) (k j : Nat) (b : Byte) :
    (s.unitWrite k b).unitRead j = if j = k then b else s.unitRead j := Memory.read_write hm k j b

/-- `locate` answers where an index lies exactly when both checks pass (R83, R85, R90, R92). -/
theorem locate_eq_ok {i : Int} {s : State} {u : Nat} {t : Fin 4} : locate i s = .ok (u, t) ↔
    0 ≤ i ∧ i < s.count.toNat ∧ i.toNat / 4 < s.slen.toNat ∧ u = i.toNat / 4 ∧ t = slotIndex i.toNat := by
  unfold locate unitIndex
  by_cases h1 : i < 0 ∨ (s.count.toNat : Int) ≤ i
  · rw [if_pos h1]; constructor
    · exact fun h => absurd h (by simp)
    · rintro ⟨a, b, -⟩; omega
  · rw [if_neg h1]
    by_cases h2 : s.slen.toNat ≤ i.toNat / 4
    · rw [if_pos h2]; constructor
      · exact fun h => absurd h (by simp)
      · rintro ⟨-, -, c, -⟩; omega
    · rw [if_neg h2]
      simp only [Except.ok.injEq, Prod.mk.injEq]
      constructor
      · rintro ⟨rfl, rfl⟩; exact ⟨by omega, by omega, by omega, rfl, rfl⟩
      · rintro ⟨-, -, -, rfl, rfl⟩; exact ⟨rfl, rfl⟩

/-- The index check fails first (R83, R90, R106). -/
theorem locate_indexOutOfRange {i : Int} {s : State} (h : i < 0 ∨ (s.count.toNat : Int) ≤ i) :
    locate i s = .error .indexOutOfRange := by rw [locate, if_pos h]

/-- The storage check fails after it (R85, R92, R106). -/
theorem locate_storageBounds {i : Int} {s : State} (h0 : 0 ≤ i) (h1 : i < s.count.toNat)
    (h2 : s.slen.toNat ≤ i.toNat / 4) : locate i s = .error .storageBounds := by
  rw [locate, if_neg (by omega)]; exact if_pos h2

/-- `locate` fails in these two ways only (R105). -/
theorem locate_error {i : Int} {s : State} {e : Status} (h : locate i s = .error e) :
    (e = .indexOutOfRange ∧ (i < 0 ∨ (s.count.toNat : Int) ≤ i)) ∨
      (e = .storageBounds ∧ 0 ≤ i ∧ i < s.count.toNat ∧ s.slen.toNat ≤ i.toNat / 4) := by
  unfold locate unitIndex at h
  split at h
  · next h1 => exact .inl ⟨(Except.error.inj h).symm, h1⟩
  · split at h
    · next h1 h2 => exact .inr ⟨(Except.error.inj h).symm, by omega, by omega, h2⟩
    · exact absurd h (by simp)

/-- `locate` looks at `COUNT` and `SLEN` only. -/
theorem locate_congr (i : Int) {s t : State} (hc : s.count = t.count) (hl : s.slen = t.slen) :
    locate i s = locate i t := by unfold locate; rw [hc, hl]

/-- R24, the first bullet: the filler slots of the units below `SLEN`. -/
theorem State.isFiller_iff {s : State} {k : Nat} {t : Fin 4} :
    s.isFiller k t = true ↔ k < s.slen.toNat ∧ s.count.toNat ≤ 4 * k + t.val := by
  simp [State.isFiller]

/-- R24, the second bullet: a unit `ceil4(COUNT) <= k < SLEN` is filler whole. -/
theorem State.isFiller_of_ceil4_le {s : State} {k : Nat} (h : ceil4 s.count.toNat ≤ k) (hk : k < s.slen.toNat)
    (t : Fin 4) : s.isFiller k t = true := by
  unfold ceil4 at h
  exact State.isFiller_iff.2 ⟨hk, by omega⟩

/-- The slot of an index as a number (R32). -/
theorem slotIndex_val (i : Nat) : (slotIndex i).val = i % 4 := rfl

/-- The slot of an index that passes both checks is no filler (R89). -/
theorem isFiller_eq_false_of_locate {i : Int} {s : State} {u : Nat} {t : Fin 4} (h : locate i s = .ok (u, t)) :
    s.isFiller u t = false := by
  obtain ⟨h0, h1, -, rfl, rfl⟩ := locate_eq_ok.mp h
  rw [Bool.eq_false_iff, Ne, State.isFiller_iff, slotIndex_val]
  omega

/-- Rounding to units stays within a 32-bit register (R19, R74). -/
theorem ceil4_lt {n : Nat} (h : n < 2 ^ 32) : ceil4 n < 2 ^ 32 := by unfold ceil4; omega

/-- A count within `MAX_COUNT` needs at most `MAX_UNITS` units (R75). -/
theorem ceil4_le {n : Nat} {s : State} (h : n ≤ s.maxCount) : ceil4 n ≤ s.maxUnits := by
  unfold State.maxCount Config.maxCount Config.slotsPerUnit at h
  unfold ceil4; omega

end Sys2Proof.Machine
end

