-- ==== Sys2Proof/Laws/Exec.lean ====
section
/-! SUPPORT. What each command, each host input and each step can do, said once: everything else about them is
derived from these. -/

namespace Sys2Proof.Machine

/-- Everything `INIT` can do (R74, R75). -/
theorem execInit_cases (n : Nat) (s : State) :
    (n ≤ s.maxCount ∧ execInit n s =
      .next ((construct n (List.replicate (ceil4 n) 0x00#8) s).pushRsp ⟨.ok, 0#32, []⟩)) ∨
    (s.maxCount < n ∧ execInit n s = .next (s.pushRsp ⟨.capacityExceeded, unsignedField n, []⟩)) := by
  unfold execInit countFits
  by_cases h : n ≤ s.maxCount
  · exact .inl ⟨h, by simp [h]⟩
  · exact .inr ⟨by omega, by simp [h]⟩

/-- Everything `ADOPT` can do (R77, R78, R129). -/
theorem execAdopt_cases (n len : Nat) (s : State) :
    (s.din.length ≠ len ∧ execAdopt n len s = .fault .payloadLength) ∨
    (s.din.length = len ∧ s.maxCount < n ∧
      execAdopt n len s = .next ((s.setDin []).pushRsp ⟨.capacityExceeded, unsignedField n, []⟩)) ∨
    (s.din.length = len ∧ n ≤ s.maxCount ∧ s.maxUnits < len ∧
      execAdopt n len s = .next ((s.setDin []).pushRsp ⟨.capacityExceeded, unsignedField len, []⟩)) ∨
    (s.din.length = len ∧ n ≤ s.maxCount ∧ len ≤ s.maxUnits ∧
      execAdopt n len s = .next (((construct n s.din s).setDin []).pushRsp ⟨.ok, 0#32, []⟩)) := by
  unfold execAdopt countFits lengthFits
  by_cases h0 : s.din.length = len
  · by_cases h1 : n ≤ s.maxCount
    · by_cases h2 : len ≤ s.maxUnits
      · exact .inr (.inr (.inr ⟨h0, h1, h2, by simp [h0, h1, h2]⟩))
      · exact .inr (.inr (.inl ⟨h0, h1, by omega, by simp [h0, h1, h2]⟩))
    · exact .inr (.inl ⟨h0, by omega, by simp [h0, h1]⟩)
  · exact .inl ⟨h0, by simp [h0]⟩

/-- The store after a successful `SET` at unit `u`, slot `t` (R86). -/
abbrev setMemory (v : Int) (u : Nat) (t : Fin 4) (s : State) : Memory :=
  Memory.write s.mem u (putSlotField (s.unitRead u) t (enc2 (clamp3 v)))

/-- Everything `SET` can do (R83, R85, R86). -/
theorem execSet_cases (i v : Int) (s : State) :
    (∃ e, locate i s = .error e ∧ execSet i v s = .next (s.pushRsp ⟨e, signedField i, []⟩)) ∨
    (∃ u t, locate i s = .ok (u, t) ∧
      execSet i v s = .next ((s.setMem (setMemory v u t s)).pushRsp ⟨.ok, 0#32, []⟩)) := by
  unfold execSet
  cases h : locate i s with
  | error e => exact .inl ⟨e, rfl, rfl⟩
  | ok p => exact .inr ⟨p.1, p.2, rfl, rfl⟩

/-- The value a `GET` at unit `u`, slot `t` answers (R93). -/
abbrev getValue (u : Nat) (t : Fin 4) (s : State) : Fin 4 := dec2 (slotField (s.unitRead u) t)

/-- Everything `GET` can do (R90, R92, R93). -/
theorem execGet_cases (i : Int) (s : State) :
    (∃ e, locate i s = .error e ∧ execGet i s = .next (s.pushRsp ⟨e, signedField i, []⟩)) ∨
    (∃ u t, locate i s = .ok (u, t) ∧
      execGet i s = .next (s.pushRsp ⟨.ok, BitVec.ofNat 32 (getValue u t s).val, []⟩)) := by
  unfold execGet
  cases h : locate i s with
  | error e => exact .inl ⟨e, rfl, rfl⟩
  | ok p => exact .inr ⟨p.1, p.2, rfl, rfl⟩

/-- What `EXPORT` does (R96). -/
theorem execExport_eq (s : State) : execExport s = .next (s.pushRsp ⟨.ok, s.slen, s.units⟩) := rfl

/-- What a command word does: the one stop, the rejection, or the decoded command (R62, R129). -/
theorem runCommand_cases (w : CmdWord) (s : State) :
    (s.din.length ≠ payloadLength w ∧ runCommand w s = .fault .payloadLength) ∨
    (s.din.length = payloadLength w ∧ ∃ r, decode w = .illegal r ∧
      runCommand w s = .next ((s.setDin []).pushRsp ⟨.illegalCommand, r.op.setWidth 32, []⟩)) ∨
    (s.din.length = payloadLength w ∧ ∃ i, decode w = .command i ∧ runCommand w s = exec i s) := by
  unfold runCommand
  by_cases h : s.din.length = payloadLength w
  · cases hd : decode w with
    | illegal r => exact .inr (.inl ⟨h, r, rfl, by simp [h]⟩)
    | command i => exact .inr (.inr ⟨h, i, rfl, by simp [h]⟩)
  · exact .inl ⟨h, by simp [h]⟩

/-- What a step does (R3, R121). -/
theorem step_cases (s : State) :
    (s.host = [] ∧ step s = .next s) ∨
    (∃ x rest, s.host = x :: rest ∧ step s = takeInput x (s.setHost rest)) := by
  unfold step
  cases h : s.host with
  | nil => exact .inl ⟨rfl, rfl⟩
  | cons x rest => exact .inr ⟨x, rest, rfl, rfl⟩

/-- What a step on a command input does (R3, R62, R129). -/
theorem step_command_cases {s : State} {w : CmdWord} {p : List Byte} {rest : List HostInput}
    (hh : s.host = .command w p :: rest) :
    (p.length ≠ payloadLength w ∧ step s = .fault .payloadLength) ∨
    (p.length = payloadLength w ∧ ∃ r, decode w = .illegal r ∧ step s =
      .next (((s.setHost rest).setDin []).pushRsp ⟨.illegalCommand, (opField w).setWidth 32, []⟩)) ∨
    (p.length = payloadLength w ∧ ∃ i, decode w = .command i ∧
      step s = exec i ((s.setHost rest).setDin p)) := by
  have hs : step s = runCommand w ((s.setHost rest).setDin p) := by simp [step, hh, takeInput]
  rw [hs]
  rcases runCommand_cases w ((s.setHost rest).setDin p) with h | ⟨hp, r, hd, h⟩ | h
  · exact .inl h
  · exact .inr (.inl ⟨hp, r, hd, by rw [h, decode_illegal_op hd]; rfl⟩)
  · exact .inr (.inr h)

/-- The payload a decoded command needs stands on `din` when its word's does (R58). -/
theorem payloadLength_of_decode {w : CmdWord} {i : Instr} (h : decode w = .command i) :
    payloadLength w = match i with
      | .adopt _ len => len
      | .init _ | .set _ _ | .get _ | .exportStorage => 0 := by
  obtain ⟨o, hs, rfl⟩ := decode_eq_command.mp h
  have hop := ((o.selects_iff w).mp hs).1
  cases o <;> simp [payloadLength, hop, Opcode.operands, Opcode.code]

end Sys2Proof.Machine
end

