-- ==== Sys2Proof/Laws/PerInstr.lean ====
section
/-! SUPPORT. Two families of statements about every command as syntax: its word selects its own row of R61,
and its word asks for exactly its own payload (R58). -/

namespace Sys2Proof.Laws

/-- The encoded word selects the command's own row (R61). -/
def EncodesOwnRow.Statement (i : Instr) : Prop := i.opcode.selects (encode i) = true

theorem EncodesOwnRow.init (n : Nat) : EncodesOwnRow.Statement (.init n) := by
  rw [EncodesOwnRow.Statement, Opcode.selects_iff]
  simp [encode, Instr.opcode, show aField Opcode.init.mask = 0#32 by decide]

theorem EncodesOwnRow.adopt (n len : Nat) : EncodesOwnRow.Statement (.adopt n len) := by
  rw [EncodesOwnRow.Statement, Opcode.selects_iff]
  simp [encode, Instr.opcode, show aField Opcode.adopt.mask = 0#32 by decide,
    show bField Opcode.adopt.mask = 0#32 by decide]

theorem EncodesOwnRow.set (i v : Int) : EncodesOwnRow.Statement (.set i v) := by
  rw [EncodesOwnRow.Statement, Opcode.selects_iff]
  simp [encode, Instr.opcode, show aField Opcode.set.mask = 0#32 by decide,
    show bField Opcode.set.mask = 0#32 by decide]

theorem EncodesOwnRow.get (i : Int) : EncodesOwnRow.Statement (.get i) := by
  rw [EncodesOwnRow.Statement, Opcode.selects_iff]
  simp [encode, Instr.opcode, show aField Opcode.get.mask = 0#32 by decide]

theorem EncodesOwnRow.exportStorage : EncodesOwnRow.Statement .exportStorage := by
  rw [EncodesOwnRow.Statement, Opcode.selects_iff]
  simp [encode, Instr.opcode]

/-- The payload bytes that belong to a command (R58). -/
def payloadOf : Instr → Nat
  | .init _ => 0
  | .adopt _ len => len
  | .set _ _ => 0
  | .get _ => 0
  | .exportStorage => 0

/-- A well-formed command's word asks for the command's own payload (R58). -/
def AsksOwnPayload.Statement (i : Instr) : Prop := i.WellFormed → payloadLength (encode i) = payloadOf i

theorem AsksOwnPayload.init (n : Nat) : AsksOwnPayload.Statement (.init n) := fun _ => by
  simp [payloadLength, encode, payloadOf, Opcode.code]

theorem AsksOwnPayload.adopt (n len : Nat) : AsksOwnPayload.Statement (.adopt n len) := fun h => by
  simp only [Instr.WellFormed, Instr.wellFormed, Bool.and_eq_true] at h
  simp [payloadLength, encode, payloadOf, unsignedField_toNat h.2]

theorem AsksOwnPayload.set (i v : Int) : AsksOwnPayload.Statement (.set i v) := fun _ => by
  simp [payloadLength, encode, payloadOf, Opcode.code]

theorem AsksOwnPayload.get (i : Int) : AsksOwnPayload.Statement (.get i) := fun _ => by
  simp [payloadLength, encode, payloadOf, Opcode.code]

theorem AsksOwnPayload.exportStorage : AsksOwnPayload.Statement .exportStorage := fun _ => by
  simp [payloadLength, encode, payloadOf, Opcode.code]

end Sys2Proof.Laws
end

