-- ==== Sys2Proof/Tests/Slice0.lean ====
section
/-! SUPPORT. The model's own tests. Expected results are the rows of spec/95_test_vectors.md that the comments
name (V1 to V82, P2, W7), or words written out from the encoding of R52 and R60. The last part gives, for every
statement with hypotheses, a state and operands that meet them. -/

namespace Sys2Proof.Tests

open Sys2Proof Sys2Proof.Machine

/-! ## Small states -/

/-- `COUNT=n, units [..]` as 95_test_vectors.md writes a state, with `MAX_UNITS = m` and nothing on the ports. -/
def given (m n : Nat) (units : List Byte) : State := construct n units { State.reset with maxUnits := m }

/-- That state with one host input. -/
def withInput (m n : Nat) (units : List Byte) (x : HostInput) : State := (given m n units).setHost [x]

/-- What a step shows: `COUNT`, the units, and the last response with its `STATUS` code. -/
structure Shown where
  count : Nat
  units : List Byte
  last : Option (BitVec 8 × Word × List Byte)
deriving DecidableEq, Repr

/-- What a next state shows. -/
def shown : Host.Outcome State Fault Refusal → Option Shown
  | .next s => some ⟨s.count.toNat, s.units, s.rsp.getLast?.map fun r => (r.status.code, r.data, r.dout)⟩
  | .fault _ => none
  | .refused _ => none

/-- One command on such a state with `MAX_UNITS = 4`. -/
def run (n : Nat) (units : List Byte) (w : CmdWord) (p : List Byte) :=
  shown (step (withInput 4 n units (.command w p)))

/-! ## WellFormed refuses an operand out of range (R57, R68) -/

theorem test_wf_init : (Instr.init (2 ^ 32)).wellFormed = false := by decide
theorem test_wf_adopt_count : (Instr.adopt (2 ^ 32) 0).wellFormed = false := by decide
theorem test_wf_adopt_length : (Instr.adopt 0 (2 ^ 32)).wellFormed = false := by decide
theorem test_wf_set_index_high : (Instr.set (2 ^ 31) 0).wellFormed = false := by decide
theorem test_wf_set_index_low : (Instr.set (-2 ^ 31 - 1) 0).wellFormed = false := by decide
theorem test_wf_set_value_high : (Instr.set 0 (2 ^ 31)).wellFormed = false := by decide
theorem test_wf_set_value_low : (Instr.set 0 (-2 ^ 31 - 1)).wellFormed = false := by decide
theorem test_wf_get_high : (Instr.get (2 ^ 31)).wellFormed = false := by decide
theorem test_wf_get_low : (Instr.get (-2 ^ 31 - 1)).wellFormed = false := by decide
theorem test_wf_limits : (Instr.init (2 ^ 32 - 1)).wellFormed = true ∧
    (Instr.set (-2 ^ 31) (2 ^ 31 - 1)).wellFormed = true ∧ Instr.exportStorage.wellFormed = true := by decide

/-! ## Decoding words written from R52: `B`, `A`, `RSV`, `OP`, most significant first -/

theorem test_decode_init :
    decode (0b00000000000000000000000000000000#32 ++ 0b00000000000000000000000000000101#32 ++
      0b00000000#8 ++ 0b00000001#8) = .command (.init 5) := by decide
theorem test_decode_adopt :
    decode (0b00000000000000000000000000000010#32 ++ 0b00000000000000000000000000000110#32 ++
      0b00000000#8 ++ 0b00000010#8) = .command (.adopt 6 2) := by decide
/-- R70's example, `SET 2, -5`. -/
theorem test_decode_set :
    decode (0b11111111111111111111111111111011#32 ++ 0b00000000000000000000000000000010#32 ++
      0b00000000#8 ++ 0b00000011#8) = .command (.set 2 (-5)) := by decide
theorem test_decode_get :
    decode (0b00000000000000000000000000000000#32 ++ 0b10000000000000000000000000000000#32 ++
      0b00000000#8 ++ 0b00000100#8) = .command (.get (-2147483648)) := by decide
theorem test_decode_export :
    decode (0b00000000000000000000000000000000#32 ++ 0b00000000000000000000000000000000#32 ++
      0b00000000#8 ++ 0b00000101#8) = .command .exportStorage := by decide
theorem test_decode_reserved : decode 0x00000007_00000005_03_06#80 = .illegal (.reservedOpcode 0x06#8) := by
  decide
theorem test_decode_table_word : decodeTableWord 80 0xFFFFFFFB_00000002_00_03 = some (.set 2 (-5)) ∧
    decodeTableWord 80 0x00000000_00000001_00_05 = none := by decide
theorem test_encode_set : encode (.set 2 (-5)) = 0xFFFFFFFB_00000002_00_03#80 := by decide

/-! ## The first instruction after reset -/

/-- `INIT 0` from reset, placed by `withFetchWord` (V1). -/
theorem test_fetch_init :
    shown (step (State.reset.withFetchWord 80 0x00000000_00000000_00_01)) =
      some ⟨0, [], some (0x00#8, 0#32, [])⟩ := by decide
/-- `EXPORT` from reset (V70). -/
theorem test_fetch_export :
    shown (step (State.reset.withFetchWord 80 0x00000000_00000000_00_05)) =
      some ⟨0, [], some (0x00#8, 0#32, [])⟩ := by decide

/-! ## One step of each command -/

/-- V4: `INIT 5`. -/
theorem test_init : run 0 [] 0x00000000_00000005_00_01#80 [] =
    some ⟨5, [0x00#8, 0x00#8], some (0x00#8, 0#32, [])⟩ := by decide
/-- V6: `INIT 17` beyond `MAX_COUNT`. -/
theorem test_init_capacity : run 3 [0x3F#8] 0x00000000_00000011_00_01#80 [] =
    some ⟨3, [0x3F#8], some (0x03#8, 0x11#32, [])⟩ := by decide
/-- V13: `ADOPT 9, [0xFF, 0x1B]`, a short storage. -/
theorem test_adopt : run 0 [] 0x00000002_00000009_00_02#80 [0xFF#8, 0x1B#8] =
    some ⟨9, [0xFF#8, 0x1B#8], some (0x00#8, 0#32, [])⟩ := by decide
/-- V17: `ADOPT 4, [5 bytes]`, the length too big. -/
theorem test_adopt_length : run 3 [0x3F#8] 0x00000005_00000004_00_02#80 (List.replicate 5 0x00#8) =
    some ⟨3, [0x3F#8], some (0x03#8, 0x05#32, [])⟩ := by decide
/-- V33: `SET 1, 1` over 0xFF. -/
theorem test_set : run 4 [0xFF#8] 0x00000001_00000001_00_03#80 [] =
    some ⟨4, [0xFB#8], some (0x00#8, 0#32, [])⟩ := by decide
/-- V48: `SET 8, 1` after a short `ADOPT`. -/
theorem test_set_storage : run 9 [0xFF#8, 0x1B#8] 0x00000001_00000008_00_03#80 [] =
    some ⟨9, [0xFF#8, 0x1B#8], some (0x02#8, 0x08#32, [])⟩ := by decide
/-- V56: `GET 3` of 0x9C, whose field `0b10` reads 1. -/
theorem test_get : run 4 [0x9C#8] 0x00000000_00000003_00_04#80 [] =
    some ⟨4, [0x9C#8], some (0x00#8, 1#32, [])⟩ := by decide
/-- V64: `GET -1`. -/
theorem test_get_negative : run 6 [0x63#8, 0x0B#8] 0x00000000_FFFFFFFF_00_04#80 [] =
    some ⟨6, [0x63#8, 0x0B#8], some (0x01#8, 0xFFFFFFFF#32, [])⟩ := by decide
/-- V72: `EXPORT` keeps extra adopted units. -/
theorem test_export : run 2 [0xF0#8, 0xAA#8, 0x55#8] 0x00000000_00000000_00_05#80 [] =
    some ⟨2, [0xF0#8, 0xAA#8, 0x55#8], some (0x00#8, 3#32, [0xF0#8, 0xAA#8, 0x55#8])⟩ := by decide
/-- V74: `EXPORT` with `A = 1`. -/
theorem test_export_illegal : run 3 [0x3F#8] 0x00000000_00000001_00_05#80 [] =
    some ⟨3, [0x3F#8], some (0x04#8, 0x05#32, [])⟩ := by decide
/-- V19: `ADOPT` with `RSV = 0x80`; the payload is discarded. -/
theorem test_illegal_adopt : run 3 [0x3F#8] 0x00000001_00000004_80_02#80 [0x11#8] =
    some ⟨3, [0x3F#8], some (0x04#8, 0x02#32, [])⟩ := by decide
/-- V82: `INIT 17` with `B = 1` is illegal before it is too big. -/
theorem test_illegal_first : run 3 [0x3F#8] 0x00000001_00000011_00_01#80 [] =
    some ⟨3, [0x3F#8], some (0x04#8, 0x01#32, [])⟩ := by decide
/-- R124: reset. -/
theorem test_reset_input : shown (step (withInput 4 3 [0x3F#8] .reset)) = some ⟨0, [], none⟩ := by decide

/-! ## The assembler (R68 to R70) -/

theorem test_read_set :
    readLine ['S', 'E', 'T', ' ', ' ', '2', ',', ' ', '-', '5', ' ', ';', 'x'] = some (some (.set 2 (-5))) := by
  decide
/-- The line of R77's example. -/
theorem test_read_adopt :
    readLine ['A', 'D', 'O', 'P', 'T', ' ', '6', ',', ' ', '[', '0', 'x', '6', '3', ',', ' ', '0', 'x', '0', 'B',
      ']'] = some (some (.adopt 6 [0x63, 0x0B])) := by decide
/-- A `.word80` line of 95_test_vectors.md, all 20 digits written. -/
theorem test_read_raw_word :
    readLine ['.', 'w', 'o', 'r', 'd', '8', '0', ' ', '0', 'x', '0', '0', '0', '0', '0', '0', '0', '0', '_', '0',
      '0', '0', '0', '0', '0', '0', '0', '_', '0', '0', '_', '0', '6'] = some (some (.word80 6)) := by decide
theorem test_read_lower_case : readLine ['g', 'e', 't', ' ', '1'] = none := by decide
theorem test_assemble_adopt : assemble (.adopt 6 [0x63, 0x0B]) =
    some (.command 0x00000002_00000006_00_02#80 [0x63#8, 0x0B#8]) := by decide
/-- R70's example. -/
theorem test_word_text : wordText 0xFFFFFFFB_00000002_00_03#80 =
    ['0', 'x', 'F', 'F', 'F', 'F', 'F', 'F', 'F', 'B', '_', '0', '0', '0', '0', '0', '0', '0', '2', '_', '0', '0',
      '_', '0', '3'] := by decide

/-! ## The whole-command function (R122) -/

/-- V50: `SET 1, 2` keeps the filler of the last unit. -/
theorem test_whole_step : wholeStep 4 ⟨2, [0xF0#8]⟩ 0x00000002_00000001_00_03#80 [] =
    (⟨2, [0xF4#8]⟩, ⟨.ok, 0#32, []⟩) := by decide

/-! ## Witnesses: the hypotheses of each statement, met together -/

/-- A command input, as most statements about a step take it. -/
def getInput : State := withInput 4 9 [0xFF#8, 0x1B#8] (.command 0x00000000_00000008_00_04#80 [])

theorem witness_UnitIsOrOfItsSlots : slotField 0x63#8 0 = enc2 3 ∧ slotField 0x63#8 1 = enc2 0 ∧
    slotField 0x63#8 2 = enc2 1 ∧ slotField 0x63#8 3 = enc2 2 := by decide
theorem witness_ValueFunctions : (-1 : Int) < 0 ∧ (3 : Int) < 4 ∧ (0 : Int) ≤ 0 ∧ (0 : Int) ≤ 3 ∧
    (0 : Int) ≤ 3 ∧ (3 : Int) ≤ 3 := by decide
theorem witness_SlotWriteSetsTwoFlags : (7 : Nat) ≠ 2 * (0 : Fin 4).val ∧ (7 : Nat) ≠ 2 * (0 : Fin 4).val + 1 := by
  decide
theorem witness_IndexMapsToUnitAndSlot :
    (match locate 7 (given 4 8 [0x00#8, 0xC0#8]) with
      | .ok a => some a
      | .error _ => none) = some (1, 3) := by decide
theorem witness_DecodeOfEncode : (Instr.set (-2 ^ 31) (2 ^ 31 - 1)).WellFormed := by decide
theorem witness_EncodeOfDecode : decode 0xFFFFFFFF_FFFFFFFF_00_02#80 = .command (.adopt (2 ^ 32 - 1) (2 ^ 32 - 1)) := by
  decide
theorem witness_DecoderTotalAndUnambiguous : Opcode.get.selects 0x00000000_FFFFFFFF_00_04#80 = true := by decide
/-- One word for each clause of the rejection, at its boundary: `0x00`, `0x06`, `0xFF`, `RSV`, `B`, `A`. -/
theorem witness_IllegalWordIsRejected :
    opField 0x00#80 = 0x00#8 ∧ 0x06#8 ≤ opField 0x06#80 ∧ 0x06#8 ≤ opField 0xFF#80 ∧
    (rsvField 0x01_02#80 ≠ 0#8 ∧ payloadLength 0x01_02#80 = 0) ∧
    (opField 0x00000001_00000000_00_04#80 = 0x04#8 ∧ bField 0x00000001_00000000_00_04#80 ≠ 0#32) ∧
    (opField 0x80000000_00000000_00_01#80 = 0x01#8 ∧ bField 0x80000000_00000000_00_01#80 ≠ 0#32) ∧
    (opField 0x00000001_00000000_00_05#80 = 0x05#8 ∧ bField 0x00000001_00000000_00_05#80 ≠ 0#32) ∧
    (opField 0x80000000_00_05#80 = 0x05#8 ∧ aField 0x80000000_00_05#80 ≠ 0#32) ∧
    (withInput 4 3 [0x3F#8] (.command 0xFF#80 [])).host = [.command 0xFF#80 []] ∧
    ([] : List Byte).length = payloadLength 0xFF#80 := by decide
theorem witness_StepRunsDecodedCommand :
    getInput.host = [.command 0x00000000_00000008_00_04#80 []] ∧
    ([] : List Byte).length = payloadLength 0x00000000_00000008_00_04#80 ∧
    decode 0x00000000_00000008_00_04#80 = .command (.get 8) := by decide
/-- One byte short and one byte too many. -/
theorem witness_WrongPayloadLengthStops :
    [0x11#8].length ≠ payloadLength 0x00000002_00000006_00_02#80 ∧
    [0x11#8].length ≠ payloadLength 0x00000000_00000006_00_02#80 ∧
    (withInput 4 0 [] (.command 0x00000002_00000006_00_02#80 [0x11#8])).host =
      [.command 0x00000002_00000006_00_02#80 [0x11#8]] := by decide
theorem witness_NoInputHoldsState : (given 4 3 [0x3F#8]).host = [] := by decide
theorem witness_ResetInputResets :
    (withInput 4 3 [0x3F#8] .reset).host = [.reset] ∧
    (withInput 4 3 [0x3F#8] (.resetDuring 0x01#80 [])).host = [.resetDuring 0x01#80 []] := by decide
theorem witness_InvariantAtReset : Config.Legal 1 ∧ Config.Legal (2 ^ 29 - 1) := by decide
/-- A state of the invariant at both limits, whose step answers a next state. -/
theorem witness_StepKeepsInvariant :
    (withInput 4 16 [0x01#8, 0x00#8, 0x03#8, 0x04#8] (.command 0x00000002_0000000F_00_03#80 [])).Inv ∧
    (shown (step (withInput 4 16 [0x01#8, 0x00#8, 0x03#8, 0x04#8]
      (.command 0x00000002_0000000F_00_03#80 [])))).isSome = true := by decide
theorem witness_CapacityNeverChanges : (shown (step getInput)).isSome = true := by decide
/-- The two clauses of `INIT` meet at 16 and 17. -/
theorem witness_InitBuildsZeroBuffer : 16 ≤ 4 * State.reset.maxUnits ∧ 4 * State.reset.maxUnits < 17 ∧
    (17 : Nat) < 2 ^ 32 ∧ opField 0x01_01#80 = 0x01#8 ∧ rsvField 0x01_01#80 ≠ 0#8 ∧
    opField 0x00000001_00000000_00_01#80 = 0x01#8 ∧ bField 0x00000001_00000000_00_01#80 ≠ 0#32 := by decide
theorem witness_InitCornerValues : (shown (exec (.init 5) State.reset)).isSome = true ∧
    (shown (exec (.init 0) State.reset)).isSome = true ∧ 5 ≤ 4 * State.reset.maxUnits := by decide
/-- The three clauses of `ADOPT`: count 17; count 16 with 5 bytes; count 16 with 4 bytes. -/
theorem witness_AdoptTakesPayloadAsGiven :
    ((given 4 0 []).setDin [0x00#8]).din.length = 1 ∧ 4 * (given 4 0 []).maxUnits < 17 ∧
    ((given 4 0 []).setDin (List.replicate 5 0x00#8)).din.length = 5 ∧ 16 ≤ 4 * (given 4 0 []).maxUnits ∧
    (given 4 0 []).maxUnits < 5 ∧ ((given 4 0 []).setDin (List.replicate 4 0x00#8)).din.length = 4 ∧
    4 ≤ (given 4 0 []).maxUnits ∧ opField 0x80_02#80 = 0x02#8 ∧ rsvField 0x80_02#80 ≠ 0#8 := by decide
theorem witness_ConstructionForgetsOldBuffer :
    (Instr.init 2).opcode = .init ∧ (Instr.adopt 6 2).opcode = .adopt ∧
    (given 4 3 [0x3F#8]).maxUnits = (given 4 0 []).maxUnits ∧ (given 4 3 [0x3F#8]).din = (given 4 0 []).din ∧
    (shown (exec (.init 2) (given 4 3 [0x3F#8]))).isSome = true ∧
    (shown (exec (.adopt 6 0) (given 4 3 [0x3F#8]))).isSome = true := by decide
/-- The three clauses of an access on `COUNT=9, units [0xFF, 0x1B]`: -1 and 9; 8; 7 and 0. -/
theorem witness_SetStoresClampedValue :
    Memory.wf (given 4 9 [0xFF#8, 0x1B#8]).mem = true ∧ ((given 4 9 [0xFF#8, 0x1B#8]).count.toNat : Int) ≤ 9 ∧
    (8 : Int) < (given 4 9 [0xFF#8, 0x1B#8]).count.toNat ∧
    (given 4 9 [0xFF#8, 0x1B#8]).slen.toNat ≤ (8 : Int).toNat / 4 ∧
    (7 : Int).toNat / 4 < (given 4 9 [0xFF#8, 0x1B#8]).slen.toNat ∧
    opField 0x01_03#80 = 0x03#8 ∧ rsvField 0x01_03#80 ≠ 0#8 := by decide
theorem witness_SetClampIsSilent : Memory.wf (given 4 8 [0x00#8, 0x0C#8]).mem = true ∧ (0 : Int) ≤ 7 ∧
    (7 : Int) < (given 4 8 [0x00#8, 0x0C#8]).count.toNat ∧
    (7 : Int).toNat / 4 < (given 4 8 [0x00#8, 0x0C#8]).slen.toNat := by decide
theorem witness_SetChangesOnlyItsSlot : Memory.wf (given 4 9 [0xFF#8, 0x1B#8]).mem = true ∧
    (shown (exec (.set 6 0) (given 4 9 [0xFF#8, 0x1B#8]))).isSome = true ∧
    (shown (exec (.set 8 1) (given 4 9 [0xFF#8, 0x1B#8]))).isSome = true := by decide
/-- R24 on `COUNT=2, SLEN=2`: slots 2 and 3 of unit 0 and the whole of unit 1, and none of unit 2. -/
theorem test_filler_slots :
    (List.range 3).map (fun k => (List.finRange 4).map ((given 4 2 [0xF0#8, 0xAA#8]).isFiller k)) =
    [[false, false, true, true], [true, true, true, true], [false, false, false, false]] := by decide
theorem witness_FillerSurvivesAccesses :
    Memory.wf (given 4 2 [0xF0#8]).mem = true ∧ (given 4 2 [0xF0#8]).isFiller 0 2 = true ∧
    (given 4 2 [0xF0#8]).slen.toNat ≤ 1 ∧
    (HostInput.command 0x00000002_00000001_00_03#80 []).keepsBuffer = true ∧
    (HostInput.command 0x06#80 []).keepsBuffer = true ∧ (HostInput.command 0x05#80 []).keepsBuffer = true := by
  decide
/-- The clauses of `GET`, as of `SET`; and a word with `RSV`, and one with `B`, nonzero. -/
theorem witness_GetReadsTwoFlags :
    (8 : Int) < (given 4 9 [0xFF#8, 0x1B#8]).count.toNat ∧
    (given 4 9 [0xFF#8, 0x1B#8]).slen.toNat ≤ (8 : Int).toNat / 4 ∧
    (7 : Int).toNat / 4 < (given 4 9 [0xFF#8, 0x1B#8]).slen.toNat ∧
    opField 0xFF_04#80 = 0x04#8 ∧ rsvField 0xFF_04#80 ≠ 0#8 ∧
    opField 0x00000001_00000000_00_04#80 = 0x04#8 ∧ bField 0x00000001_00000000_00_04#80 ≠ 0#32 := by decide
/-- Two buffers that differ in filler and in another slot, and agree in slot 1. -/
theorem witness_GetSeesOnlyItsSlot : (given 4 2 [0xF2#8]).count = (given 4 2 [0x01#8]).count ∧
    (given 4 2 [0xF2#8]).slen = (given 4 2 [0x01#8]).slen ∧
    slotField ((given 4 2 [0xF2#8]).unitRead 0) 1 = slotField ((given 4 2 [0x01#8]).unitRead 0) 1 := by decide
theorem witness_SetThenGetRoundTrip :
    (given 4 5 [0x00#8, 0x00#8]).Inv ∧ (Instr.set 4 99).WellFormed ∧
    (4 : Int) < (given 4 5 [0x00#8, 0x00#8]).count.toNat ∧
    (4 : Int).toNat / 4 < (given 4 5 [0x00#8, 0x00#8]).slen.toNat ∧
    (HostInput.command 0x00000003_00000003_00_03#80 []).keepsIndex 4 = true ∧
    (HostInput.command 0x00000000_00000005_00_04#80 []).keepsIndex 4 = true ∧
    (HostInput.command 0x00000000_00000000_01_05#80 []).keepsIndex 4 = true := by decide
theorem witness_LastWriteWins : Memory.wf (given 4 8 [0x00#8, 0x0C#8]).mem = true := by decide
theorem witness_SetsAtDifferentIndicesCommute : Memory.wf (given 4 8 [0x00#8, 0x0C#8]).mem = true ∧
    (5 : Int) ≠ 6 := by decide
theorem witness_ExportReturnsAllUnits : opField 0x01_05#80 = 0x05#8 ∧ rsvField 0x01_05#80 ≠ 0#8 ∧
    opField 0x00000001_00_05#80 = 0x05#8 ∧ aField 0x00000001_00_05#80 ≠ 0#32 ∧
    opField 0x80000000_00000000_00_05#80 = 0x05#8 ∧ bField 0x80000000_00000000_00_05#80 ≠ 0#32 := by decide
theorem witness_TransportRoundTrip : (given 4 6 [0x63#8, 0x0B#8]).Inv ∧
    (given 4 3 [0x3F#8]).maxUnits = (given 4 6 [0x63#8, 0x0B#8]).maxUnits := by decide
theorem witness_InitThenExportCapacity : 16 ≤ 4 * (given 4 3 [0x3F#8]).maxUnits ∧
    (given 4 3 [0x3F#8]).din = [] := by decide
/-- A failing command, whose step answers one response that is not `OK` (V67). -/
theorem witness_FailedCommandHasNoEffect :
    getInput.host = [.command 0x00000000_00000008_00_04#80 []] ∧
    shown (step getInput) = some ⟨9, [0xFF#8, 0x1B#8], some (0x02#8, 0x08#32, [])⟩ := by decide
theorem witness_OneResponsePerCommand :
    getInput.host = [.command 0x00000000_00000008_00_04#80 []] ∧
    ([] : List Byte).length = payloadLength 0x00000000_00000008_00_04#80 := by decide
theorem witness_ErrorsOfEachCommand :
    (shown (exec (.init 17) (given 4 0 []))) = some ⟨0, [], some (0x03#8, 0x11#32, [])⟩ ∧
    (shown (exec (.get 0) (given 4 1 []))) = some ⟨1, [], some (0x02#8, 0#32, [])⟩ := by decide
/-- A word and a state for each clause of the priority: illegal, `INIT`, `ADOPT`, `GET`, `SET` (V18 among them). -/
theorem witness_FirstFailingCheckIsReported :
    decode 0x06#80 = .illegal (.reservedOpcode 0x06#8) ∧
    decode 0x00000000_00000011_00_01#80 = .command (.init 17) ∧
    decode 0x00000005_00000011_00_02#80 = .command (.adopt 17 5) ∧
    decode 0x00000000_00000009_00_04#80 = .command (.get 9) ∧
    decode 0x00000001_00000009_00_03#80 = .command (.set 9 1) ∧
    run 3 [0x3F#8] 0x00000005_00000011_00_02#80 (List.replicate 5 0x00#8) =
      some ⟨3, [0x3F#8], some (0x03#8, 0x11#32, [])⟩ ∧
    run 9 [0xFF#8] 0x00000001_00000009_00_03#80 [] = some ⟨9, [0xFF#8], some (0x01#8, 0x09#32, [])⟩ := by decide
theorem witness_DataOfEachOutcome :
    run 6 [0x63#8, 0x0B#8] 0x00000000_00000005_00_04#80 [] =
      some ⟨6, [0x63#8, 0x0B#8], some (0x00#8, 1#32, [])⟩ ∧
    decode 0x00000000_00000005_00_04#80 = .command (.get 5) ∧ decode 0x05#80 = .command .exportStorage := by
  decide
/-- Steps that change `COUNT`: a reset, and `INIT 2` (V8). -/
theorem witness_OnlyConstructionChangesCount :
    (given 4 3 [0x3F#8]).count.toNat = 3 ∧
    shown (step (withInput 4 3 [0x3F#8] .reset)) = some ⟨0, [], none⟩ ∧
    run 3 [0x3F#8] 0x00000000_00000002_00_01#80 [] = some ⟨2, [0x00#8], some (0x00#8, 0#32, [])⟩ := by decide
theorem witness_ErrorsAreNotSticky :
    (shown (takeInput (.command 0x00000000_00000008_00_04#80 []) (given 4 9 [0xFF#8, 0x1B#8]))).isSome = true := by
  decide
/-- Both outcomes of `ADOPT`: with its payload, and without. -/
theorem witness_OnlyMissingPayloadStops :
    (shown (exec (.adopt 6 2) ((given 4 0 []).setDin [0x63#8, 0x0B#8]))).isSome = true ∧
    (given 4 0 []).din.length ≠ 2 := by decide
theorem witness_StepRefinesWholeCommand : getInput.Inv ∧
    getInput.host = [.command 0x00000000_00000008_00_04#80 []] ∧
    ([] : List Byte).length = payloadLength 0x00000000_00000008_00_04#80 := by decide
theorem witness_AssemblerEncodesInRange : (0 : Int) ≤ 2 ^ 32 - 1 ∧ ((2 : Int) ^ 32 - 1) < 2 ^ 32 ∧
    ¬((2 : Int) ^ 32 < 2 ^ 32) ∧ (-2 : Int) ^ 31 ≤ -2 ^ 31 ∧ (0 : Int) ≤ 255 ∧ (255 : Int) < 256 := by decide

end Sys2Proof.Tests
end

/-! ## The scope of the block: what its steps can do to its state, and the value functions -/

namespace Sys2Proof.Machine

/-! ### What a command can do to `COUNT`, `SLEN` and the store -/

/-- The three things a command or a reset can do to the block's own state (R13): leave it, replace the whole
buffer within capacity (R73, R79; reset leaves the buffer of `INIT 0`, R27), or write one existing unit (R86).
The ports do not enter. -/
inductive BufferChange (s t : State) : Prop where
  | keep (h : t.SameBuffer s)
  | build (n : Nat) (bytes : List Byte) (hn : n ≤ s.maxCount) (hlen : bytes.length ≤ s.maxUnits)
      (h : t.SameBuffer (construct n bytes s))
  | write (u : Nat) (b : Byte) (hu : u < s.slen.toNat) (h : t.SameBuffer (s.unitWrite u b))

/-- What a completed command or reset is known to do: it keeps the capacity (R30), changes the buffer in one of
the ways of `BufferChange`, and leaves nothing on `din` (R26, R58). -/
structure InputEffect (s t : State) : Prop where
  maxUnits_eq : t.maxUnits = s.maxUnits
  buffer : BufferChange s t
  din_eq : t.din = []

theorem execInit_effect {n : Nat} {s t : State} (h : execInit n s = .next t) (hd : s.din = []) :
    InputEffect s t := by
  rcases execInit_cases n s with ⟨hn, he⟩ | ⟨-, he⟩ <;> obtain rfl := Host.Outcome.next.inj (he.symm.trans h)
  · have hlen : (List.replicate (ceil4 n) 0x00#8).length ≤ s.maxUnits := by
      rw [List.length_replicate]; exact ceil4_le hn
    exact ⟨rfl, .build n _ hn hlen ⟨rfl, rfl, rfl⟩, hd⟩
  · exact ⟨rfl, .keep ⟨rfl, rfl, rfl⟩, hd⟩

/-- `ADOPT` consumes its payload whether it succeeds or not (R58), so nothing is asked of `din`. -/
theorem execAdopt_effect {n len : Nat} {s t : State} (h : execAdopt n len s = .next t) : InputEffect s t := by
  rcases execAdopt_cases n len s with ⟨-, he⟩ | ⟨-, -, he⟩ | ⟨-, -, -, he⟩ | ⟨hlen, hn, hfit, he⟩
  · exact nomatch he.symm.trans h
  · obtain rfl := Host.Outcome.next.inj (he.symm.trans h)
    exact ⟨rfl, .keep ⟨rfl, rfl, rfl⟩, rfl⟩
  · obtain rfl := Host.Outcome.next.inj (he.symm.trans h)
    exact ⟨rfl, .keep ⟨rfl, rfl, rfl⟩, rfl⟩
  · obtain rfl := Host.Outcome.next.inj (he.symm.trans h)
    exact ⟨rfl, .build n s.din hn (hlen ▸ hfit) ⟨rfl, rfl, rfl⟩, rfl⟩

theorem execSet_effect {i v : Int} {s t : State} (h : execSet i v s = .next t) (hd : s.din = []) :
    InputEffect s t := by
  rcases execSet_cases i v s with ⟨e, -, he⟩ | ⟨u, c, hloc, he⟩ <;>
    obtain rfl := Host.Outcome.next.inj (he.symm.trans h)
  · exact ⟨rfl, .keep ⟨rfl, rfl, rfl⟩, hd⟩
  · obtain ⟨-, -, hu, rfl, -⟩ := locate_eq_ok.mp hloc
    exact ⟨rfl, .write _ _ hu ⟨rfl, rfl, rfl⟩, hd⟩

theorem execGet_effect {i : Int} {s t : State} (h : execGet i s = .next t) (hd : s.din = []) :
    InputEffect s t := by
  rcases execGet_cases i s with ⟨e, -, he⟩ | ⟨u, c, -, he⟩ <;>
    obtain rfl := Host.Outcome.next.inj (he.symm.trans h) <;>
    exact ⟨rfl, .keep ⟨rfl, rfl, rfl⟩, hd⟩

theorem execExport_effect {s t : State} (h : execExport s = .next t) (hd : s.din = []) : InputEffect s t := by
  obtain rfl := Host.Outcome.next.inj ((execExport_eq s).symm.trans h)
  exact ⟨rfl, .keep ⟨rfl, rfl, rfl⟩, hd⟩

/-- A legal word asks for the payload of the command it decodes to (R58). -/
theorem payloadLength_eq_payloadOf {w : CmdWord} {i : Instr} (h : decode w = .command i) :
    payloadLength w = Laws.payloadOf i := by
  rw [payloadLength_of_decode h]
  cases i <;> rfl

/-- The effect of each command that has its own payload on `din` (R58). -/
theorem exec_effect {i : Instr} {s t : State} (h : exec i s = .next t)
    (hp : s.din.length = Laws.payloadOf i) : InputEffect s t := by
  cases i with
  | init n => exact execInit_effect h (List.eq_nil_of_length_eq_zero hp)
  | adopt n len => exact execAdopt_effect h
  | set i v => exact execSet_effect h (List.eq_nil_of_length_eq_zero hp)
  | get i => exact execGet_effect h (List.eq_nil_of_length_eq_zero hp)
  | exportStorage => exact execExport_effect h (List.eq_nil_of_length_eq_zero hp)

theorem runCommand_effect {w : CmdWord} {s t : State} (h : runCommand w s = .next t) : InputEffect s t := by
  rcases runCommand_cases w s with ⟨-, he⟩ | ⟨-, r, -, he⟩ | ⟨hp, i, hdec, he⟩
  · exact nomatch he.symm.trans h
  · obtain rfl := Host.Outcome.next.inj (he.symm.trans h)
    exact ⟨rfl, .keep ⟨rfl, rfl, rfl⟩, rfl⟩
  · exact exec_effect (he.symm.trans h) (hp.trans (payloadLength_eq_payloadOf hdec))

/-- Reset leaves the buffer that `INIT 0` builds (R27, R124). -/
theorem applyReset_effect (s : State) : InputEffect s (applyReset s) :=
  ⟨rfl, .build 0 [] (Nat.zero_le _) (Nat.zero_le _) ⟨rfl, rfl, rfl⟩, rfl⟩

/-- The effect is one on the block's own state: what stood on `din` and in `host` before makes no difference. -/
theorem InputEffect.of_ports {s t : State} {hs : List HostInput} {p : List Byte}
    (h : InputEffect ((s.setHost hs).setDin p) t) : InputEffect s t where
  maxUnits_eq := h.maxUnits_eq
  buffer := match h.buffer with
    | .keep h => .keep h
    | .build n bytes hn hlen h => .build n bytes hn hlen h
    | .write u b hu h => .write u b hu h
  din_eq := h.din_eq

theorem takeInput_effect {x : HostInput} {s t : State} (h : takeInput x s = .next t) : InputEffect s t := by
  cases x with
  | command w p => exact (runCommand_effect h).of_ports (hs := s.host)
  | reset => exact Host.Outcome.next.inj h ▸ applyReset_effect s
  | resetDuring w p => exact Host.Outcome.next.inj h ▸ applyReset_effect s

/-- A step holds the state (R121) or has the effect of the input it takes. -/
theorem step_effect {s t : State} (h : step s = .next t) : t = s ∨ InputEffect s t := by
  rcases step_cases s with ⟨-, he⟩ | ⟨x, rest, -, he⟩
  · exact .inl (Host.Outcome.next.inj (he.symm.trans h)).symm
  · exact .inr ((takeInput_effect (he.symm.trans h)).of_ports (hs := rest) (p := s.din))

/-! ### The invariant -/

/-- `MAX_COUNT` at a legal capacity is a 32-bit number (R6). -/
theorem State.maxCount_lt {s : State} (h : Config.Legal s.maxUnits) : s.maxCount < 2 ^ 32 := by
  obtain ⟨-, hmax⟩ := h
  simp only [State.maxCount, Config.maxCount, Config.slotsPerUnit, Config.maxUnitsLimit] at hmax ⊢
  omega

/-- `MAX_UNITS` is at most `MAX_COUNT` (R6). -/
theorem State.maxUnits_le_maxCount (s : State) : s.maxUnits ≤ s.maxCount := by
  simp only [State.maxCount, Config.maxCount, Config.slotsPerUnit]
  omega

/-- The invariant is a property of the capacity, the buffer and `din`: it does not look at `host` or `rsp`. -/
theorem State.Inv.of_sameBuffer {s t : State} (hs : s.Inv) (hmax : t.maxUnits = s.maxUnits)
    (hbuf : t.SameBuffer s) (hdin : t.din = []) : t.Inv := by
  obtain ⟨hcount, hslen, hmem⟩ := hbuf
  obtain ⟨hlegal, hc, hl, hwf, hbelow, -⟩ := hs
  unfold State.Inv State.maxCount
  rw [hmax, hcount, hslen, hmem]
  exact ⟨hlegal, hc, hl, hwf, hbelow, hdin⟩

/-- A buffer built within a legal capacity is one of the invariant: neither register wraps (R6, R75, R78). -/
theorem inv_construct {n : Nat} {bytes : List Byte} {s : State} (hs : s.Inv) (hn : n ≤ s.maxCount)
    (hlen : bytes.length ≤ s.maxUnits) : (construct n bytes s).Inv := by
  obtain ⟨hlegal, -, -, -, -, hdin⟩ := hs
  have hcap := State.maxCount_lt hlegal
  have hcount : (BitVec.ofNat 32 n).toNat = n := by
    rw [BitVec.toNat_ofNat]; exact Nat.mod_eq_of_lt (by omega)
  have hslen : (BitVec.ofNat 32 bytes.length).toNat = bytes.length := by
    rw [BitVec.toNat_ofNat]
    exact Nat.mod_eq_of_lt (by have := s.maxUnits_le_maxCount; omega)
  refine ⟨hlegal, hcount.le.trans hn, hslen.le.trans hlen, Memory.wf_writeAll rfl 0 bytes, ?_, hdin⟩
  exact Memory.below_writeAll rfl bytes (by simp [hslen])

/-- Writing a unit that exists keeps the invariant (R86). -/
theorem inv_unitWrite {u : Nat} {s : State} (hs : s.Inv) (hu : u < s.slen.toNat) (b : Byte) :
    (s.unitWrite u b).Inv := by
  obtain ⟨hlegal, hc, hl, hwf, hbelow, hdin⟩ := hs
  exact ⟨hlegal, hc, hl, Memory.wf_write hwf u b, Memory.below_write hbelow hu b, hdin⟩

/-- Whatever a command or a reset does keeps the invariant (R29). -/
theorem InputEffect.inv {s t : State} (h : InputEffect s t) (hs : s.Inv) : t.Inv := by
  cases h.buffer with
  | keep hbuf => exact hs.of_sameBuffer h.maxUnits_eq hbuf h.din_eq
  | build n bytes hn hlen hbuf => exact (inv_construct hs hn hlen).of_sameBuffer h.maxUnits_eq hbuf h.din_eq
  | write u b hu hbuf => exact (inv_unitWrite hs hu b).of_sameBuffer h.maxUnits_eq hbuf h.din_eq

/-- Settles O17: a step holds its state or has an `InputEffect`, and each of the three changes of the buffer
keeps the invariant. -/
theorem stepKeepsInvariant : Obligations.StepKeepsInvariant := by
  intro s t hs h
  rcases step_effect h with rfl | heff
  · exact hs
  · exact heff.inv hs

/-- Settles O18: no input changes the capacity. -/
theorem capacityNeverChanges : Obligations.CapacityNeverChanges := by
  intro s t h
  rcases step_effect h with rfl | heff
  · rfl
  · exact heff.maxUnits_eq

/-- Reset gives an empty buffer, which satisfies the invariant at any legal capacity (R27, R29). -/
theorem inv_reset_of_legal {m : Nat} (h : Config.Legal m) : ({ State.reset with maxUnits := m } : State).Inv :=
  ⟨h, Nat.zero_le _, Nat.zero_le _, rfl, rfl, rfl⟩

/-- Settles O16: the capacity the model chose at reset is one of the legal ones. -/
theorem invariantAtReset : Obligations.InvariantAtReset :=
  ⟨inv_reset_of_legal (m := Config.maxUnitsAtReset) (by decide), fun _ => inv_reset_of_legal⟩

/-! ### The host's later inputs are neither read nor changed by a command -/

/-- Apply a function to the next state; a stop stays the same stop. -/
def mapNext (f : State → State) : Host.Outcome State Fault Refusal → Host.Outcome State Fault Refusal
  | .next s => .next (f s)
  | .fault r => .fault r
  | .refused r => .refused r

theorem execInit_setHost (n : Nat) (s : State) (hs : List HostInput) :
    execInit n (s.setHost hs) = mapNext (·.setHost hs) (execInit n s) := by
  unfold execInit
  rw [show countFits n (s.setHost hs) = countFits n s from rfl]
  split <;> rfl

theorem execAdopt_setHost (n len : Nat) (s : State) (hs : List HostInput) :
    execAdopt n len (s.setHost hs) = mapNext (·.setHost hs) (execAdopt n len s) := by
  unfold execAdopt
  rw [State.setHost_din, show countFits n (s.setHost hs) = countFits n s from rfl,
    show lengthFits len (s.setHost hs) = lengthFits len s from rfl]
  split_ifs <;> rfl

theorem execSet_setHost (i v : Int) (s : State) (hs : List HostInput) :
    execSet i v (s.setHost hs) = mapNext (·.setHost hs) (execSet i v s) := by
  unfold execSet
  rw [locate_congr i (s.setHost_count hs) (s.setHost_slen hs)]
  cases locate i s <;> rfl

theorem execGet_setHost (i : Int) (s : State) (hs : List HostInput) :
    execGet i (s.setHost hs) = mapNext (·.setHost hs) (execGet i s) := by
  unfold execGet
  rw [locate_congr i (s.setHost_count hs) (s.setHost_slen hs)]
  cases locate i s <;> rfl

theorem exec_setHost (i : Instr) (s : State) (hs : List HostInput) :
    exec i (s.setHost hs) = mapNext (·.setHost hs) (exec i s) := by
  cases i with
  | init n => exact execInit_setHost n s hs
  | adopt n len => exact execAdopt_setHost n len s hs
  | set i v => exact execSet_setHost i v s hs
  | get i => exact execGet_setHost i s hs
  | exportStorage => rfl

theorem runCommand_setHost (w : CmdWord) (s : State) (hs : List HostInput) :
    runCommand w (s.setHost hs) = mapNext (·.setHost hs) (runCommand w s) := by
  unfold runCommand
  rw [State.setHost_din]
  split
  · rfl
  · cases decode w with
    | illegal r => rfl
    | command i => exact exec_setHost i s hs

/-- Taking an input neither reads nor changes what the host does later (R15, R43). -/
theorem takeInput_setHost (x : HostInput) (s : State) (hs : List HostInput) :
    takeInput x (s.setHost hs) = mapNext (·.setHost hs) (takeInput x s) := by
  cases x with
  | command w p => exact runCommand_setHost w (s.setDin p) hs
  | reset => rfl
  | resetDuring w p => rfl

/-- A step takes the head of the host's list and leaves the rest (R3). -/
theorem step_setHost_cons (x : HostInput) (xs : List HostInput) (s : State) :
    step (s.setHost (x :: xs)) = takeInput x (s.setHost xs) := rfl

/-- Settles O19, by induction on the inputs: a step takes the first, and the others go on from a state whose
`host` may be set to either list. -/
theorem stepsTakeInputsInOrder : Obligations.StepsTakeInputsInOrder := by
  intro xs rest
  induction xs with
  | nil => intro s; rfl
  | cons x xs ih =>
    intro s
    rw [List.cons_append, List.length_cons, runSteps, runInputs, step_setHost_cons, takeInput_setHost,
      takeInput_setHost]
    cases takeInput x s with
    | next t => exact ih t
    | fault f => rfl
    | refused r => rfl

/-! ### The step and the decoded command -/

/-- Settles O11: of the ways `step_command_cases` leaves, the payload's length excludes the stop and the decoded
command the rejection. -/
theorem stepRunsDecodedCommand : Obligations.StepRunsDecodedCommand := by
  intro s w p rest i hh hp hdec
  rcases step_command_cases hh with ⟨hne, -⟩ | ⟨-, r, hr, -⟩ | ⟨-, j, hj, he⟩
  · exact absurd hp hne
  · exact nomatch hr.symm.trans hdec
  · obtain rfl := Decoded.command.inj (hj.symm.trans hdec)
    exact he

/-! ### The value functions of R10 -/

theorem clamp3_of_neg {v : Int} (h : v < 0) : clamp3 v = 0 := if_pos h

theorem clamp3_of_gt {v : Int} (h : 3 < v) : clamp3 v = 3 := by
  rcases clamp3_cases v with ⟨_, _⟩ | ⟨_, hv⟩ | ⟨_, _, _⟩
  · omega
  · exact hv
  · omega

theorem clamp3_of_mem {v : Int} (h0 : 0 ≤ v) (h3 : v ≤ 3) : ((clamp3 v).val : Int) = v := by
  rcases clamp3_cases v with ⟨_, _⟩ | ⟨_, _⟩ | ⟨_, _, hv⟩
  · omega
  · omega
  · exact hv

/-- Bit 0 of a field is the ge2 flag (R10, R34). -/
theorem enc2_bit_zero (c : Fin 4) : (enc2 c)[0] = ge2Flag c := by revert c; decide

/-- Bit 1 of a field is the odd flag (R10, R35). -/
theorem enc2_bit_one (c : Fin 4) : (enc2 c)[1] = oddFlag c := by revert c; decide

/-- The sum of `dec2` is below 4, so taking it as a `Fin 4` loses nothing (R10). -/
theorem dec2_val (f : BitVec 2) : (dec2 f).val = 2 * f[0].toNat + 1 * f[1].toNat := by
  have h0 := f[0].toNat_le
  have h1 := f[1].toNat_le
  exact Nat.mod_eq_of_lt (by omega)

theorem enc2_dec2 (f : BitVec 2) : enc2 (dec2 f) = f := by revert f; decide

/-- Settles O1, from the clamp by cases and the bits of a field. -/
theorem valueFunctions : Obligations.ValueFunctions :=
  ⟨fun _ => clamp3_of_neg, fun _ => clamp3_of_gt, fun _ => clamp3_of_mem,
    fun c => ⟨enc2_bit_zero c, enc2_bit_one c⟩, dec2_val, dec2_enc2, enc2_dec2, rfl, rfl, rfl, rfl⟩

end Sys2Proof.Machine

/-! ## The state between commands: reset, what changes `COUNT` and `SLEN`, and what responses leave behind -/

namespace Sys2Proof.Machine

/-! ### Reset and `INIT 0` -/

/-- At `SLEN = 0` no address exists (R31). -/
theorem State.unitAt_of_slen_zero {s : State} (h : s.slen = 0#32) (k : Nat) : s.unitAt k = none := by
  simp [State.unitAt, h]

/-- `INIT 0` is within every capacity and builds the buffer of no unit (R75, R76). -/
theorem execInit_zero (s : State) : execInit 0 s = .next ((construct 0 [] s).pushRsp ⟨.ok, 0#32, []⟩) := by
  rcases execInit_cases 0 s with ⟨-, h⟩ | ⟨hlt, -⟩
  · exact h
  · exact absurd hlt (Nat.not_lt_zero _)

/-- Settles O15: the buffer of no unit, which `INIT 0` builds on any state, is that of `State.reset`. -/
theorem resetStateIsInitZero : Obligations.ResetStateIsInitZero :=
  ⟨rfl, rfl, State.unitAt_of_slen_zero rfl, fun s => ⟨_, execInit_zero s, rfl, rfl, rfl⟩⟩

/-! ### What changes `COUNT` and `SLEN` -/

/-- `COUNT` and `SLEN` are the same in both (R17, R19); the store may differ. -/
abbrev State.SameRegisters (s t : State) : Prop := s.count = t.count ∧ s.slen = t.slen

theorem execInit_registers {n : Nat} {s t : State} (h : execInit n s = .next t) :
    t.SameRegisters s ∨ t.rsp = s.rsp ++ [⟨.ok, 0#32, []⟩] := by
  rcases execInit_cases n s with ⟨-, he⟩ | ⟨-, he⟩ <;> obtain rfl := Host.Outcome.next.inj (he.symm.trans h)
  · exact .inr rfl
  · exact .inl ⟨rfl, rfl⟩

theorem execAdopt_registers {n len : Nat} {s t : State} (h : execAdopt n len s = .next t) :
    t.SameRegisters s ∨ t.rsp = s.rsp ++ [⟨.ok, 0#32, []⟩] := by
  rcases execAdopt_cases n len s with ⟨-, he⟩ | ⟨-, -, he⟩ | ⟨-, -, -, he⟩ | ⟨-, -, -, he⟩
  · exact nomatch he.symm.trans h
  · obtain rfl := Host.Outcome.next.inj (he.symm.trans h)
    exact .inl ⟨rfl, rfl⟩
  · obtain rfl := Host.Outcome.next.inj (he.symm.trans h)
    exact .inl ⟨rfl, rfl⟩
  · obtain rfl := Host.Outcome.next.inj (he.symm.trans h)
    exact .inr rfl

theorem execSet_registers {i v : Int} {s t : State} (h : execSet i v s = .next t) : t.SameRegisters s := by
  rcases execSet_cases i v s with ⟨e, -, he⟩ | ⟨u, c, -, he⟩ <;>
    obtain rfl := Host.Outcome.next.inj (he.symm.trans h) <;>
    exact ⟨rfl, rfl⟩

theorem execGet_registers {i : Int} {s t : State} (h : execGet i s = .next t) : t.SameRegisters s := by
  rcases execGet_cases i s with ⟨e, -, he⟩ | ⟨u, c, -, he⟩ <;>
    obtain rfl := Host.Outcome.next.inj (he.symm.trans h) <;>
    exact ⟨rfl, rfl⟩

/-- A command keeps `COUNT` and `SLEN` or is a construction that answers `OK` (R18). -/
theorem exec_registers {i : Instr} {s t : State} (h : exec i s = .next t) :
    t.SameRegisters s ∨
      ((i.opcode = .init ∨ i.opcode = .adopt) ∧ t.rsp = s.rsp ++ [⟨.ok, 0#32, []⟩]) := by
  cases i with
  | init n => exact (execInit_registers h).imp_right fun hr => ⟨.inl rfl, hr⟩
  | adopt n len => exact (execAdopt_registers h).imp_right fun hr => ⟨.inr rfl, hr⟩
  | set i v => exact .inl (execSet_registers h)
  | get i => exact .inl (execGet_registers h)
  | exportStorage =>
    obtain rfl := Host.Outcome.next.inj ((execExport_eq s).symm.trans h)
    exact .inl ⟨rfl, rfl⟩

/-- A command word keeps `COUNT` and `SLEN` or decodes to a construction that answers `OK` (R18, R62). -/
theorem runCommand_registers {w : CmdWord} {s t : State} (h : runCommand w s = .next t) :
    t.SameRegisters s ∨
      ∃ i, decode w = .command i ∧ (i.opcode = .init ∨ i.opcode = .adopt) ∧
        t.rsp = s.rsp ++ [⟨.ok, 0#32, []⟩] := by
  rcases runCommand_cases w s with ⟨-, he⟩ | ⟨-, r, -, he⟩ | ⟨-, i, hdec, he⟩
  · exact nomatch he.symm.trans h
  · obtain rfl := Host.Outcome.next.inj (he.symm.trans h)
    exact .inl ⟨rfl, rfl⟩
  · exact (exec_registers (he.symm.trans h)).imp_right fun hc => ⟨i, hdec, hc⟩

/-- Settles O42: with no input the state is held, a reset is named by the statement, and a command that keeps
neither register is a construction answered `OK`. -/
theorem onlyConstructionChangesCount : Obligations.OnlyConstructionChangesCount := by
  intro s t h hne
  have hdiff : ¬ t.SameRegisters s := fun ⟨hc, hl⟩ => hne.elim (absurd hc) (absurd hl)
  rcases step_cases s with ⟨-, he⟩ | ⟨x, rest, hhost, he⟩
  · obtain rfl := Host.Outcome.next.inj (he.symm.trans h)
    exact absurd ⟨rfl, rfl⟩ hdiff
  · refine ⟨x, rest, hhost, ?_⟩
    cases x with
    | reset => exact .inl rfl
    | resetDuring w p => exact .inr (.inl ⟨w, p, rfl⟩)
    | command w p =>
      have hrun : runCommand w ((s.setHost rest).setDin p) = .next t := he.symm.trans h
      rcases runCommand_registers hrun with hsame | ⟨i, hdec, hop, hr⟩
      · exact absurd hsame hdiff
      · exact .inr (.inr ⟨w, p, i, rfl, hdec, hop, hr⟩)

/-! ### Earlier responses are neither read nor changed by a command -/

/-- The state in which the responses `rs` were given before those of `s`. -/
def State.prependRsp (rs : List Response) (s : State) : State := { s with rsp := rs ++ s.rsp }

@[simp] theorem State.prependRsp_din (rs : List Response) (s : State) : (s.prependRsp rs).din = s.din := rfl

/-- A response goes after all earlier ones, whichever they are (R123). -/
theorem next_respond_prependRsp (st : Status) (data : Word) (payload : List Byte) (rs : List Response)
    (s : State) : (.next (respond st data payload (s.prependRsp rs)) : Host.Outcome State Fault Refusal) =
      mapNext (·.prependRsp rs) (.next (respond st data payload s)) := by
  simp [mapNext, State.prependRsp, State.pushRsp]

theorem execInit_prependRsp (n : Nat) (s : State) (rs : List Response) :
    execInit n (s.prependRsp rs) = mapNext (·.prependRsp rs) (execInit n s) := by
  unfold execInit
  rw [show countFits n (s.prependRsp rs) = countFits n s from rfl]
  split
  · exact next_respond_prependRsp _ _ _ rs (construct n _ s)
  · exact next_respond_prependRsp _ _ _ rs s

theorem execAdopt_prependRsp (n len : Nat) (s : State) (rs : List Response) :
    execAdopt n len (s.prependRsp rs) = mapNext (·.prependRsp rs) (execAdopt n len s) := by
  unfold execAdopt
  rw [State.prependRsp_din, show countFits n (s.prependRsp rs) = countFits n s from rfl,
    show lengthFits len (s.prependRsp rs) = lengthFits len s from rfl]
  split_ifs
  · rfl
  · exact next_respond_prependRsp _ _ _ rs (consumePayload (construct n s.din s))
  · exact next_respond_prependRsp _ _ _ rs (consumePayload s)
  · exact next_respond_prependRsp _ _ _ rs (consumePayload s)

theorem execSet_prependRsp (i v : Int) (s : State) (rs : List Response) :
    execSet i v (s.prependRsp rs) = mapNext (·.prependRsp rs) (execSet i v s) := by
  unfold execSet
  rw [locate_congr i (s := s.prependRsp rs) (t := s) rfl rfl]
  cases locate i s with
  | error e => exact next_respond_prependRsp _ _ _ rs s
  | ok p => exact next_respond_prependRsp _ _ _ rs (s.unitWrite _ _)

theorem execGet_prependRsp (i : Int) (s : State) (rs : List Response) :
    execGet i (s.prependRsp rs) = mapNext (·.prependRsp rs) (execGet i s) := by
  unfold execGet
  rw [locate_congr i (s := s.prependRsp rs) (t := s) rfl rfl]
  cases locate i s with
  | error e => exact next_respond_prependRsp _ _ _ rs s
  | ok p => exact next_respond_prependRsp _ _ _ rs s

theorem exec_prependRsp (i : Instr) (s : State) (rs : List Response) :
    exec i (s.prependRsp rs) = mapNext (·.prependRsp rs) (exec i s) := by
  cases i with
  | init n => exact execInit_prependRsp n s rs
  | adopt n len => exact execAdopt_prependRsp n len s rs
  | set i v => exact execSet_prependRsp i v s rs
  | get i => exact execGet_prependRsp i s rs
  | exportStorage => exact next_respond_prependRsp _ _ _ rs s

theorem runCommand_prependRsp (w : CmdWord) (s : State) (rs : List Response) :
    runCommand w (s.prependRsp rs) = mapNext (·.prependRsp rs) (runCommand w s) := by
  unfold runCommand
  rw [State.prependRsp_din]
  split
  · rfl
  · cases decode w with
    | illegal r => exact next_respond_prependRsp _ _ _ rs (consumePayload s)
    | command i => exact exec_prependRsp i s rs

/-- Taking an input neither reads nor changes the responses given before it (R16, R110). -/
theorem takeInput_prependRsp (x : HostInput) (s : State) (rs : List Response) :
    takeInput x (s.prependRsp rs) = mapNext (·.prependRsp rs) (takeInput x s) := by
  cases x with
  | command w p => exact runCommand_prependRsp w (s.setDin p) rs
  | reset => rfl
  | resetDuring w p => rfl

/-- A state without its earlier responses: what it answers next is all that `rsp` holds. -/
def State.forgetRsp (s : State) : State := { s with rsp := [] }

/-- Any earlier responses can be put before a state that has none. -/
theorem State.prependRsp_forgetRsp (s : State) (rs : List Response) :
    s.forgetRsp.prependRsp rs = { s with rsp := rs } := by
  simp [State.prependRsp, State.forgetRsp]

/-- A mapped outcome that is a next state comes from one. -/
theorem mapNext_eq_next {f : State → State} {o : Host.Outcome State Fault Refusal} {t : State}
    (h : mapNext f o = .next t) : ∃ u, o = .next u ∧ f u = t := by
  cases o with
  | next u => exact ⟨u, rfl, Host.Outcome.next.inj h⟩
  | fault r => exact nomatch h
  | refused r => exact nomatch h

/-- Settles O43: from the state without its earlier responses the input answers `new`, and from any earlier
responses it does the same and answers `new` after them. -/
theorem errorsAreNotSticky : Obligations.ErrorsAreNotSticky := by
  intro x s t h
  have hall (rs : List Response) : takeInput x { s with rsp := rs } =
      mapNext (·.prependRsp rs) (takeInput x s.forgetRsp) := by
    rw [← s.prependRsp_forgetRsp, takeInput_prependRsp]
  obtain ⟨u, hu, rfl⟩ := mapNext_eq_next ((hall s.rsp).symm.trans h)
  exact ⟨u.rsp, rfl, fun rs => by rw [hall, hu]; rfl⟩

end Sys2Proof.Machine

/-! ## Units, slots and logical values: what a `SET` writes, a `GET` reads and every other command keeps -/

namespace Sys2Proof.Machine

/-! ### A unit as its four slots -/

/-- Bit `k` of the field of slot `t` is bit `2t + k` of the unit (R33). -/
theorem getLsbD_slotField (b : Byte) (t : Fin 4) {k : Nat} (hk : k < 2) :
    (slotField b t).getLsbD k = b.getLsbD (2 * t.val + k) := by
  simp [slotField, hk]

/-- Every unit is the OR of its four shifted fields (R36). -/
theorem byte_eq_or_slotFields (b : Byte) :
    b = (slotField b 0).setWidth 8 ||| (slotField b 1).setWidth 8 <<< 2 |||
      (slotField b 2).setWidth 8 <<< 4 ||| (slotField b 3).setWidth 8 <<< 6 := by
  ext i hi
  interval_cases i <;> simp [slotField]

/-- Settles O2: the unit is the OR of its own fields, and each row of the table is four closed words. -/
theorem unitIsOrOfItsSlots : Obligations.UnitIsOrOfItsSlots := by
  refine ⟨fun b v0 v1 v2 v3 h0 h1 h2 h3 => ?_, rfl, rfl, rfl, rfl⟩
  rw [← h0, ← h1, ← h2, ← h3]
  exact byte_eq_or_slotFields b

/-- The two bits of the slot that was written are the bits of the field (R33, R86). -/
theorem getLsbD_putSlotField (b : Byte) (t : Fin 4) (f : BitVec 2) {k : Nat} (hk : k < 2) :
    (putSlotField b t f).getLsbD (2 * t.val + k) = f.getLsbD k := by
  rw [← getLsbD_slotField _ t hk, slotField_putSlotField]

/-- Bits outside the slot that was written are kept: each lies in another slot, or beyond the unit (R86, R87). -/
theorem getLsbD_putSlotField_ne (b : Byte) (t : Fin 4) (f : BitVec 2) {j : Nat} (h0 : j ≠ 2 * t.val)
    (h1 : j ≠ 2 * t.val + 1) : (putSlotField b t f).getLsbD j = b.getLsbD j := by
  rcases Nat.lt_or_ge j 8 with hj | hj
  · let c : Fin 4 := ⟨j / 2, by omega⟩
    have hc : c ≠ t := fun h => by
      have : j / 2 = t.val := congrArg Fin.val h
      omega
    have hbit : j = 2 * c.val + j % 2 := (Nat.div_add_mod j 2).symm
    have hk : j % 2 < 2 := Nat.mod_lt j (by omega)
    rw [hbit, ← getLsbD_slotField _ c hk, ← getLsbD_slotField _ c hk, slotField_putSlotField_ne b hc]
  · rw [BitVec.getLsbD_of_ge _ _ hj, BitVec.getLsbD_of_ge _ _ hj]

/-- Settles O3: the slot's own two bits are those of `enc2`, its flags; the others are kept. -/
theorem slotWriteSetsTwoFlags : Obligations.SlotWriteSetsTwoFlags := fun b t c =>
  ⟨(getLsbD_putSlotField b t (enc2 c) (k := 0) (by omega)).trans (enc2_bit_zero c),
    (getLsbD_putSlotField b t (enc2 c) (k := 1) (by omega)).trans (enc2_bit_one c),
    fun _ h0 h1 => getLsbD_putSlotField_ne b t (enc2 c) h0 h1⟩

/-! ### The logical index -/

/-- Bits 31 to 2 of an index field are its unit (R32). -/
theorem unitIndex_toNat (a : Word) : unitIndex a.toNat = (a.extractLsb' 2 30).toNat := by
  have := a.isLt
  rw [BitVec.extractLsb'_toNat, Nat.shiftRight_eq_div_pow, unitIndex]
  omega

/-- Bits 1 and 0 of an index field are its slot (R32). -/
theorem slotIndex_toNat (a : Word) : (slotIndex a.toNat).val = (a.extractLsb' 0 2).toNat := by
  rw [BitVec.extractLsb'_toNat, Nat.shiftRight_zero, slotIndex_val]

/-- Settles O4: the two readings of the index field, and what `locate` has checked when it answers. -/
theorem indexMapsToUnitAndSlot : Obligations.IndexMapsToUnitAndSlot := by
  refine ⟨fun a => ⟨rfl, unitIndex_toNat a, slotIndex_val _, slotIndex_toNat a⟩, fun i s u t h => ?_⟩
  obtain ⟨h0, hcount, -, hu, ht⟩ := locate_eq_ok.mp h
  exact ⟨h0, hcount, hu, ht⟩

/-- No two indices share both unit and slot (R32). -/
theorem index_eq_of_unit_of_slot {m n : Nat} (hu : unitIndex m = unitIndex n) (ht : slotIndex m = slotIndex n) :
    m = n := by
  have hmod : m % 4 = n % 4 := congrArg Fin.val ht
  unfold unitIndex at hu
  omega

/-! ### Logical values -/

/-- `Val` reads the block's own state only (R23). -/
theorem State.val_congr {s t : State} (h : s.SameBuffer t) (n : Nat) : s.val n = t.val n := by
  obtain ⟨hcount, hslen, hmem⟩ := h
  unfold State.val State.unitRead
  rw [hcount, hslen, hmem]

/-- `Val(n)` is defined exactly where `locate` answers, and is then what the slot holds (R23). -/
theorem State.val_eq_some {s : State} {n : Nat} {c : Fin 4} :
    s.val n = some c ↔ ∃ u t, locate n s = .ok (u, t) ∧ getValue u t s = c := by
  rw [State.val, Option.ite_none_right_eq_some, Option.some.injEq]
  constructor
  · rintro ⟨⟨hcount, hslen⟩, hc⟩
    exact ⟨_, _, locate_eq_ok.mpr ⟨Int.natCast_nonneg n, Int.ofNat_lt.mpr hcount, hslen, rfl, rfl⟩, hc⟩
  · rintro ⟨u, t, hloc, hc⟩
    obtain ⟨-, hcount, hslen, rfl, rfl⟩ := locate_eq_ok.mp hloc
    exact ⟨⟨Int.ofNat_lt.mp hcount, hslen⟩, hc⟩

/-- Every slot of every unit after a successful `SET` at unit `u`, slot `t` (R86, R87). -/
theorem slotField_read_setMemory {s : State} (hm : Memory.wf s.mem = true) (v : Int) (u k : Nat) (t c : Fin 4) :
    slotField (Memory.read (setMemory v u t s) k) c =
      if k = u ∧ c = t then enc2 (clamp3 v) else slotField (s.unitRead k) c := by
  rw [Memory.read_write hm]
  by_cases hk : k = u
  · simp [hk, slotField_putSlotField_if]
  · simp [hk, State.unitRead]

/-- A `SET` that passes both checks makes the clamped value the one at its index (R86). -/
theorem val_setMemory_same {s : State} (hm : Memory.wf s.mem = true) {n u : Nat} {t : Fin 4}
    (h : locate n s = .ok (u, t)) (v : Int) : (s.setMem (setMemory v u t s)).val n = some (clamp3 v) := by
  have hslot : slotField ((s.setMem (setMemory v u t s)).unitRead u) t = enc2 (clamp3 v) :=
    (slotField_read_setMemory hm v u u t t).trans (if_pos ⟨rfl, rfl⟩)
  exact State.val_eq_some.mpr ⟨u, t, h, by rw [getValue, hslot, dec2_enc2]⟩

/-- A `SET` that passes both checks keeps every value at another index, in the same unit or not (R87). -/
theorem val_setMemory_ne {s : State} (hm : Memory.wf s.mem = true) {i : Int} {u n : Nat} {t : Fin 4}
    (h : locate i s = .ok (u, t)) (hn : (n : Int) ≠ i) (v : Int) :
    (s.setMem (setMemory v u t s)).val n = s.val n := by
  obtain ⟨h0, -, -, hu, ht⟩ := locate_eq_ok.mp h
  have hslot : ¬ (unitIndex n = u ∧ slotIndex n = t) := fun ⟨hnu, hnt⟩ => by
    have := index_eq_of_unit_of_slot (hnu.trans hu) (hnt.trans ht)
    omega
  have hfield := (slotField_read_setMemory hm v u (unitIndex n) t (slotIndex n)).trans (if_neg hslot)
  simp only [State.val, State.unitRead, State.setMem_count, State.setMem_slen, State.setMem_mem, hfield]

/-- `GET` answers the value at its index, where there is one (R93). -/
theorem execGet_of_val {s : State} {n : Nat} {c : Fin 4} (h : s.val n = some c) :
    execGet n s = .next (s.pushRsp ⟨.ok, BitVec.ofNat 32 c.val, []⟩) := by
  obtain ⟨u, t, hloc, rfl⟩ := State.val_eq_some.mp h
  rw [execGet, hloc]
  rfl

/-! ### A well-formed command as a host input -/

/-- The operands of a well-formed command read back from its word (R57). -/
theorem operands_encode {i : Instr} (h : i.WellFormed) : i.opcode.operands (encode i) = i := by
  cases i with
  | init n => simp [Instr.opcode, Opcode.operands, encode, unsignedField_toNat h]
  | adopt n len =>
    obtain ⟨hn, hlen⟩ := Bool.and_eq_true_iff.mp h
    simp [Instr.opcode, Opcode.operands, encode, unsignedField_toNat hn, unsignedField_toNat hlen]
  | set i v =>
    obtain ⟨hi, hv⟩ := Bool.and_eq_true_iff.mp h
    simp [Instr.opcode, Opcode.operands, encode, signedField_toInt hi, signedField_toInt hv]
  | get i => simp [Instr.opcode, Opcode.operands, encode, signedField_toInt h]
  | exportStorage => rfl

theorem wellFormed_get_of_set {i v : Int} (h : (Instr.set i v).WellFormed) : (Instr.get i).WellFormed := by
  obtain ⟨hi, -⟩ := Bool.and_eq_true_iff.mp h
  exact hi

/-- Every command's word selects the command's own row (R61). -/
theorem opcode_selects_encode (i : Instr) : i.opcode.selects (encode i) = true := by
  cases i with
  | init n => exact Laws.EncodesOwnRow.init n
  | adopt n len => exact Laws.EncodesOwnRow.adopt n len
  | set i v => exact Laws.EncodesOwnRow.set i v
  | get i => exact Laws.EncodesOwnRow.get i
  | exportStorage => exact Laws.EncodesOwnRow.exportStorage

theorem decode_encode {i : Instr} (h : i.WellFormed) : decode (encode i) = .command i :=
  decode_eq_command.mpr ⟨i.opcode, opcode_selects_encode i, operands_encode h⟩

/-- Taking a well-formed command with its own payload runs it with that payload on `din` (R58, R62). -/
theorem takeInput_commandOf {i : Instr} {p : List Byte} (h : i.WellFormed) (hp : p.length = Laws.payloadOf i)
    (s : State) : takeInput (commandOf i p) s = exec i (s.setDin p) := by
  have hdec := decode_encode h
  rcases runCommand_cases (encode i) (s.setDin p) with ⟨hne, -⟩ | ⟨-, r, hr, -⟩ | ⟨-, j, hj, he⟩
  · exact absurd (hp.trans (payloadLength_eq_payloadOf hdec).symm) hne
  · exact nomatch hr.symm.trans hdec
  · obtain rfl := Decoded.command.inj (hj.symm.trans hdec)
    exact he

/-! ### Commands that keep the value at an index -/

/-- Every command but `INIT`, `ADOPT` and `SET` at index `i` (Q1): what `HostInput.keepsIndex` asks of the command
a word decodes to. -/
def KeepsIndex (i : Int) : Instr → Prop
  | .init _ => False
  | .adopt _ _ => False
  | .set j _ => j ≠ i
  | .get _ => True
  | .exportStorage => True

/-- The inputs of `HostInput.keepsIndex` are command words with their payload, and the legal ones decode to a
command that keeps the index. -/
theorem HostInput.keepsIndex_cases {i : Int} {x : HostInput} (h : x.keepsIndex i = true) :
    ∃ w p, x = .command w p ∧ p.length = payloadLength w ∧
      ∀ c, decode w = .command c → KeepsIndex i c := by
  cases x with
  | reset => exact nomatch h
  | resetDuring w p => exact nomatch h
  | command w p =>
    obtain ⟨hp, hw⟩ := Bool.and_eq_true_iff.mp h
    refine ⟨w, p, rfl, of_decide_eq_true hp, fun c hc => ?_⟩
    rw [hc] at hw
    cases c with
    | init n => exact nomatch hw
    | adopt n len => exact nomatch hw
    | set j v => exact of_decide_eq_true (p := j ≠ i) hw
    | get j => trivial
    | exportStorage => trivial

/-- From `s` the outcome is a next state with one more response and the same value at index `n`. -/
def AnswersKeeping (n : Nat) (s : State) (o : Host.Outcome State Fault Refusal) : Prop :=
  ∃ t r, o = .next t ∧ t.rsp = s.rsp ++ [r] ∧ t.val n = s.val n

/-- Giving a response keeps every value. -/
theorem answersKeeping_pushRsp (n : Nat) (s : State) (r : Response) : AnswersKeeping n s (.next (s.pushRsp r)) :=
  ⟨_, r, rfl, rfl, rfl⟩

theorem execSet_answersKeeping {j : Int} {n : Nat} (v : Int) {s : State} (hm : Memory.wf s.mem = true)
    (hj : j ≠ n) : AnswersKeeping n s (execSet j v s) := by
  rcases execSet_cases j v s with ⟨e, -, he⟩ | ⟨u, t, hloc, he⟩
  · exact he ▸ answersKeeping_pushRsp n s _
  · exact ⟨_, _, he, rfl, val_setMemory_ne hm hloc hj.symm v⟩

theorem execGet_answersKeeping (j : Int) (n : Nat) (s : State) : AnswersKeeping n s (execGet j s) := by
  rcases execGet_cases j s with ⟨e, -, he⟩ | ⟨u, t, -, he⟩ <;> exact he ▸ answersKeeping_pushRsp n s _

theorem exec_answersKeeping {c : Instr} {n : Nat} {s : State} (hm : Memory.wf s.mem = true)
    (hc : KeepsIndex n c) : AnswersKeeping n s (exec c s) := by
  cases c with
  | init m => exact hc.elim
  | adopt m len => exact hc.elim
  | set j v => exact execSet_answersKeeping v hm hc
  | get j => exact execGet_answersKeeping j n s
  | exportStorage => exact answersKeeping_pushRsp n s _

/-- An input of `HostInput.keepsIndex` completes, legal or not, failing or not, and keeps the value at the index
(Q1). -/
theorem takeInput_answersKeeping {x : HostInput} {n : Nat} {s : State} (hm : Memory.wf s.mem = true)
    (hx : x.keepsIndex n = true) : AnswersKeeping n s (takeInput x s) := by
  obtain ⟨w, p, rfl, hp, hc⟩ := HostInput.keepsIndex_cases hx
  rcases runCommand_cases w (s.setDin p) with ⟨hne, -⟩ | ⟨-, r, -, he⟩ | ⟨-, c, hdec, he⟩
  · exact absurd hp hne
  · exact ⟨_, _, he, rfl, rfl⟩
  · obtain ⟨t, r, ht, hr, hval⟩ := exec_answersKeeping (s := s.setDin p) hm (hc c hdec)
    exact ⟨t, r, he.trans ht, hr, hval⟩

/-! ### Runs -/

theorem State.Inv.wf {s : State} (h : s.Inv) : Memory.wf s.mem = true := by
  obtain ⟨-, -, -, hwf, -⟩ := h
  exact hwf

theorem runInputs_cons_of_next {x : HostInput} {s t : State} (h : takeInput x s = .next t)
    (xs : List HostInput) : runInputs (x :: xs) s = runInputs xs t := by
  rw [runInputs, h]

/-- A run of two lists is a run of the second from where the first ends (R43). -/
theorem runInputs_append_of_next {xs : List HostInput} {s t : State} (h : runInputs xs s = .next t)
    (ys : List HostInput) : runInputs (xs ++ ys) s = runInputs ys t := by
  induction xs generalizing s with
  | nil => exact congrArg (runInputs ys) (Host.Outcome.next.inj h)
  | cons x xs ih =>
    rw [runInputs] at h
    rw [List.cons_append, runInputs]
    cases hx : takeInput x s with
    | next u => rw [hx] at h; exact ih h
    | fault f => rw [hx] at h; exact nomatch h
    | refused r => rw [hx] at h; exact nomatch h

/-- Any number of commands that keep an index completes, answers once each and keeps the value there (Q1). -/
theorem runInputs_of_keepsIndex {n : Nat} {xs : List HostInput} {s : State} (hs : s.Inv)
    (hxs : ∀ x ∈ xs, x.keepsIndex n = true) :
    ∃ t, runInputs xs s = .next t ∧ t.rsp.length = s.rsp.length + xs.length ∧ t.val n = s.val n := by
  induction xs generalizing s with
  | nil => exact ⟨s, rfl, rfl, rfl⟩
  | cons x xs ih =>
    obtain ⟨hx, hxs⟩ := List.forall_mem_cons.mp hxs
    obtain ⟨u, r, hu, hrsp, hval⟩ := takeInput_answersKeeping hs.wf hx
    obtain ⟨t, ht, hlen, hval'⟩ := ih ((takeInput_effect hu).inv hs) hxs
    refine ⟨t, (runInputs_cons_of_next hu xs).trans ht, ?_, hval'.trans hval⟩
    rw [hlen, hrsp, List.length_append, List.length_singleton, List.length_cons]
    omega

/-- `SET` at an index with a unit, as an input: one `OK`, and the clamped value stands there (R86). -/
theorem takeInput_set {n : Nat} {v : Int} {s : State} (hm : Memory.wf s.mem = true)
    (hwf : (Instr.set n v).WellFormed) (hcount : n < s.count.toNat) (hslen : n / 4 < s.slen.toNat) :
    ∃ t, takeInput (commandOf (.set n v) []) s = .next t ∧ t.rsp = s.rsp ++ [⟨.ok, 0#32, []⟩] ∧
      t.val n = some (clamp3 v) := by
  have hloc : locate n (s.setDin []) = .ok (n / 4, slotIndex n) :=
    locate_eq_ok.mpr ⟨by omega, by simpa using hcount, hslen, rfl, rfl⟩
  rcases execSet_cases n v (s.setDin []) with ⟨e, herr, -⟩ | ⟨u, t, hut, he⟩
  · exact nomatch herr.symm.trans hloc
  · exact ⟨_, (takeInput_commandOf hwf rfl s).trans he, rfl, val_setMemory_same hm hut v⟩

/-- `GET` at an index with a value, as an input: one `OK` with that value (R93). -/
theorem takeInput_get {n : Nat} {s : State} {c : Fin 4} (hwf : (Instr.get n).WellFormed)
    (h : s.val n = some c) : takeInput (commandOf (.get n) []) s =
      .next ((s.setDin []).pushRsp ⟨.ok, BitVec.ofNat 32 c.val, []⟩) :=
  (takeInput_commandOf hwf rfl s).trans (execGet_of_val (s := s.setDin []) h)

/-- Settles O31: the `SET` puts the clamped value at its index, the commands in between keep it there, and the
`GET` answers it. -/
theorem setThenGetRoundTrip : Obligations.SetThenGetRoundTrip := by
  intro i v s xs hs hwf h0 hcount hslen hxs
  obtain ⟨n, rfl⟩ := Int.eq_ofNat_of_zero_le h0
  obtain ⟨t1, ht1, hrsp1, hval1⟩ := takeInput_set hs.wf hwf (Int.ofNat_lt.mp hcount) hslen
  obtain ⟨t2, ht2, hlen2, hval2⟩ := runInputs_of_keepsIndex ((takeInput_effect ht1).inv hs) hxs
  have hget := takeInput_get (wellFormed_get_of_set hwf) (hval2.trans hval1)
  have hrun : runInputs (commandOf (.set n v) [] :: xs ++ [commandOf (.get n) []]) s =
      .next ((t2.setDin []).pushRsp ⟨.ok, BitVec.ofNat 32 (clamp3 v).val, []⟩) := by
    rw [List.cons_append, runInputs_cons_of_next ht1, runInputs_append_of_next ht2, runInputs_cons_of_next hget,
      runInputs]
  refine ⟨_, hrun, ?_, List.getLast?_concat⟩
  simp only [State.pushRsp_rsp, State.setDin_rsp, List.length_append, List.length_singleton, hlen2, hrsp1]
  omega

end Sys2Proof.Machine

/-! ## The encoding: the decoder and the encoder, illegal words, `DATA`, the response word and the assembler -/

namespace Sys2Proof.Machine

/-! ### Decoder and encoder are inverse -/

/-- Settles O6: the word of a command selects the command's own row, and its operands read back. -/
theorem decodeOfEncode : Obligations.DecodeOfEncode := fun _ => decode_encode

/-- The operands that any word carries are in range (R57). -/
theorem operands_wellFormed (o : Opcode) (w : CmdWord) : (o.operands w).WellFormed := by
  cases o with
  | init => exact fitsUnsigned_toNat _
  | adopt => exact Bool.and_eq_true_iff.mpr ⟨fitsUnsigned_toNat _, fitsUnsigned_toNat _⟩
  | set => exact Bool.and_eq_true_iff.mpr ⟨fitsSigned_toInt _, fitsSigned_toInt _⟩
  | get => exact fitsSigned_toInt _
  | exportStorage => rfl

/-- A command word is put together from its own four fields (R52). -/
theorem packCommand_fields (w : CmdWord) : packCommand (opField w) (rsvField w) (aField w) (bField w) = w :=
  cmdWord_ext (by simp) (by simp) (by simp) (by simp)

/-- A word that selects a row is the word of the command it carries: each field is an operand or must be zero
(R61, R64). -/
theorem encode_operands {o : Opcode} {w : CmdWord} (h : o.selects w = true) : encode (o.operands w) = w := by
  obtain ⟨hop, hrsv, -, -⟩ := (o.selects_iff w).mp h
  obtain ⟨hb, ha⟩ := Opcode.selects_zero h
  have hw : packCommand o.code 0#8 (aField w) (bField w) = w := by rw [← hop, ← hrsv, packCommand_fields]
  cases o with
  | init => rwa [hb (.inl rfl), ← unsignedField_of_toNat (aField w)] at hw
  | adopt => rwa [← unsignedField_of_toNat (aField w), ← unsignedField_of_toNat (bField w)] at hw
  | set => rwa [← signedField_of_toInt (aField w), ← signedField_of_toInt (bField w)] at hw
  | get => rwa [hb (.inr (.inl rfl)), ← signedField_of_toInt (aField w)] at hw
  | exportStorage => rwa [hb (.inr (.inr rfl)), ha rfl] at hw

/-- Settles O7: a word that decodes to a command selects a row, and the row leaves no bit of it free. -/
theorem encodeOfDecode : Obligations.EncodeOfDecode := by
  intro w i h
  obtain ⟨o, hs, rfl⟩ := decode_eq_command.mp h
  exact ⟨operands_wellFormed o w, encode_operands hs⟩

/-! ### The rows of the opcode map exclude each other -/

/-- No two rows match the same word, because their `OP` values differ (R71). -/
theorem opcode_eq_of_selects {o o' : Opcode} {w : CmdWord} (h : o.selects w = true) (h' : o'.selects w = true) :
    o = o' := by
  obtain ⟨hop, -⟩ := (o.selects_iff w).mp h
  obtain ⟨hop', -⟩ := (o'.selects_iff w).mp h'
  exact Opcode.code_inj (hop.symm.trans hop')

/-- A legal word selects the row of its command and no other (R71). -/
theorem selects_iff_of_decode {w : CmdWord} {i : Instr} (h : decode w = .command i) (o : Opcode) :
    o.selects w = true ↔ o = i.opcode := by
  obtain ⟨o', hs, rfl⟩ := decode_eq_command.mp h
  rw [o'.operands_opcode]
  exact ⟨fun ho => opcode_eq_of_selects ho hs, fun ho => ho ▸ hs⟩

/-- An illegal word selects no row (R71). -/
theorem not_selects_of_decode_illegal {w : CmdWord} {r : Reject} (h : decode w = .illegal r) (o : Opcode) :
    o.selects w = false :=
  Bool.eq_false_iff.mpr fun hs => nomatch h.symm.trans (decode_eq_command.mpr ⟨o, hs, rfl⟩)

/-- Settles O8: the decoder answers a command or `ILLEGAL`, and either answer says which rows match. -/
theorem decoderTotalAndUnambiguous : Obligations.DecoderTotalAndUnambiguous := by
  refine ⟨fun w => ?_, fun _ _ _ => opcode_eq_of_selects⟩
  cases h : decode w with
  | command i => exact .inl ⟨i, rfl, selects_iff_of_decode h⟩
  | illegal r => exact .inr ⟨r, rfl, not_selects_of_decode_illegal h⟩

/-! ### Illegal words -/

/-- The assigned opcodes are `0x01` to `0x05` (R60, R63). -/
theorem opcode_code_range (o : Opcode) : o.code ≠ 0x00#8 ∧ ¬ 0x06#8 ≤ o.code := by
  cases o <;> decide

/-- R61 and R63 on the fields of a word: its opcode is reserved, or a field that must be zero is not. -/
def BreaksEncoding (w : CmdWord) : Prop :=
  opField w = 0x00#8 ∨ 0x06#8 ≤ opField w ∨ rsvField w ≠ 0#8 ∨
    ((opField w = 0x01#8 ∨ opField w = 0x04#8 ∨ opField w = 0x05#8) ∧ bField w ≠ 0#32) ∨
    (opField w = 0x05#8 ∧ aField w ≠ 0#32)

/-- A word that selects a row has an assigned opcode, and every field that must be zero is zero (R61). -/
theorem not_breaksEncoding_of_selects {o : Opcode} {w : CmdWord} (h : o.selects w = true) :
    ¬ BreaksEncoding w := by
  obtain ⟨hop, hrsv, -, -⟩ := (o.selects_iff w).mp h
  obtain ⟨hb, ha⟩ := Opcode.selects_zero h
  obtain ⟨hzero, hhigh⟩ := opcode_code_range o
  have hrow (o' : Opcode) (h' : opField w = o'.code) : o = o' := Opcode.code_inj (hop.symm.trans h')
  rintro (h0 | h6 | hr | ⟨hB, hne⟩ | ⟨hA, hne⟩)
  · exact hzero (hop ▸ h0)
  · exact hhigh (hop ▸ h6)
  · exact hr hrsv
  · exact hne (hb (hB.imp (hrow .init) (Or.imp (hrow .get) (hrow .exportStorage))))
  · exact hne (ha (hrow .exportStorage hA))

/-- Settles O9: the payload's length excludes the stop, and a word that breaks the encoding decodes to no
command, so the rejection is what is left. -/
theorem illegalWordIsRejected : Obligations.IllegalWordIsRejected := by
  intro s w p rest hh hp hbad
  rcases step_command_cases hh with ⟨hne, -⟩ | ⟨-, r, -, he⟩ | ⟨-, i, hdec, -⟩
  · exact absurd hp hne
  · exact he
  · obtain ⟨o, hs, -⟩ := decode_eq_command.mp hdec
    exact absurd hbad (not_breaksEncoding_of_selects hs)

/-! ### What `DATA` holds -/

/-- The responses a word can be given in state `s`, each with what its `DATA` reports (R67). -/
inductive Answers (s : State) (w : CmdWord) : Response → Prop where
  /-- R104. -/
  | illegal (r : Reject) (hdec : decode w = .illegal r) :
    Answers s w ⟨.illegalCommand, (opField w).setWidth 32, []⟩
  /-- An access that fails (R101, R102). -/
  | access (i : Int) (e : Status) (hloc : locate i s = .error e) : Answers s w ⟨e, aField w, []⟩
  /-- A count beyond capacity (R75, R78). -/
  | count (h : s.maxCount < (aField w).toNat) : Answers s w ⟨.capacityExceeded, aField w, []⟩
  /-- A payload beyond capacity (R78). -/
  | length (h : (aField w).toNat ≤ s.maxCount) : Answers s w ⟨.capacityExceeded, bField w, []⟩
  /-- `GET` (R93). -/
  | value (i : Int) (v : Fin 4) (hdec : decode w = .command (.get i)) (hval : s.val i.toNat = some v) :
    Answers s w ⟨.ok, BitVec.ofNat 32 v.val, []⟩
  /-- `EXPORT` (R96). -/
  | units (hdec : decode w = .command .exportStorage) : Answers s w ⟨.ok, s.slen, s.units⟩
  /-- `INIT`, `ADOPT` and `SET` that succeed (R74, R77, R86). -/
  | done (hget : ∀ i, decode w ≠ .command (.get i)) (hexport : decode w ≠ .command .exportStorage) :
    Answers s w ⟨.ok, 0#32, []⟩

/-- An index that `locate` finds has a value there (R23). -/
theorem val_toNat_of_locate {i : Int} {s : State} {u : Nat} {c : Fin 4} (h : locate i s = .ok (u, c)) :
    s.val i.toNat = some (getValue u c s) := by
  obtain ⟨h0, -⟩ := locate_eq_ok.mp h
  exact State.val_eq_some.mpr ⟨u, c, by rwa [Int.toNat_of_nonneg h0], rfl⟩

/-- A word of another row than `GET` and `EXPORT` can be answered `OK` with no data (R67). -/
theorem answers_done {o : Opcode} {w : CmdWord} (s : State) (hdec : decode w = .command (o.operands w))
    (hget : o ≠ .get) (hexport : o ≠ .exportStorage) : Answers s w ⟨.ok, 0#32, []⟩ := by
  have hop {i : Instr} (h : decode w = .command i) : o = i.opcode := by
    rw [Decoded.command.inj (h.symm.trans hdec), o.operands_opcode]
  exact .done (fun _ h => hget (hop h)) fun h => hexport (hop h)

/-- A command that completes gives one response, of those of its word. -/
theorem exec_answers {w : CmdWord} {i : Instr} {s t : State} (hdec : decode w = .command i)
    (h : exec i s = .next t) : ∃ r, t.rsp = s.rsp ++ [r] ∧ Answers s w r := by
  obtain ⟨o, -, rfl⟩ := decode_eq_command.mp hdec
  cases o with
  | init =>
    rcases execInit_cases (aField w).toNat s with ⟨-, he⟩ | ⟨hn, he⟩ <;>
      obtain rfl := Host.Outcome.next.inj (he.symm.trans h)
    · exact ⟨_, rfl, answers_done s hdec nofun nofun⟩
    · exact ⟨_, rfl, by rw [unsignedField_of_toNat]; exact .count hn⟩
  | adopt =>
    rcases execAdopt_cases (aField w).toNat (bField w).toNat s with
      ⟨-, he⟩ | ⟨-, hn, he⟩ | ⟨-, hn, -, he⟩ | ⟨-, -, -, he⟩
    · exact nomatch he.symm.trans h
    · obtain rfl := Host.Outcome.next.inj (he.symm.trans h)
      exact ⟨_, rfl, by rw [unsignedField_of_toNat]; exact .count hn⟩
    · obtain rfl := Host.Outcome.next.inj (he.symm.trans h)
      exact ⟨_, rfl, by rw [unsignedField_of_toNat]; exact .length hn⟩
    · obtain rfl := Host.Outcome.next.inj (he.symm.trans h)
      exact ⟨_, rfl, answers_done s hdec nofun nofun⟩
  | set =>
    rcases execSet_cases (aField w).toInt (bField w).toInt s with ⟨e, hloc, he⟩ | ⟨u, c, -, he⟩ <;>
      obtain rfl := Host.Outcome.next.inj (he.symm.trans h)
    · exact ⟨_, rfl, by rw [signedField_of_toInt]; exact .access _ e hloc⟩
    · exact ⟨_, rfl, answers_done s hdec nofun nofun⟩
  | get =>
    rcases execGet_cases (aField w).toInt s with ⟨e, hloc, he⟩ | ⟨u, c, hloc, he⟩ <;>
      obtain rfl := Host.Outcome.next.inj (he.symm.trans h)
    · exact ⟨_, rfl, by rw [signedField_of_toInt]; exact .access _ e hloc⟩
    · exact ⟨_, rfl, .value _ _ hdec (val_toNat_of_locate hloc)⟩
  | exportStorage =>
    obtain rfl := Host.Outcome.next.inj ((execExport_eq s).symm.trans h)
    exact ⟨_, rfl, .units hdec⟩

/-- What a word is answered depends neither on the host's later inputs nor on what stands on `din`. -/
theorem Answers.of_ports {s : State} {w : CmdWord} {r : Response} {hs : List HostInput} {p : List Byte}
    (h : Answers ((s.setHost hs).setDin p) w r) : Answers s w r := by
  cases h with
  | illegal r hdec => exact .illegal r hdec
  | access i e hloc => exact .access i e hloc
  | count h => exact .count h
  | length h => exact .length h
  | value i v hdec hval => exact .value i v hdec hval
  | units hdec => exact .units hdec
  | done hget hexport => exact .done hget hexport

/-- A step on a command input that completes gives one response, of those of the word (R67, R127). -/
theorem step_answers {s t : State} {w : CmdWord} {p : List Byte} {rest : List HostInput}
    (hh : s.host = .command w p :: rest) (h : step s = .next t) :
    ∃ r, t.rsp = s.rsp ++ [r] ∧ Answers s w r := by
  rcases step_command_cases hh with ⟨-, he⟩ | ⟨-, e, hdec, he⟩ | ⟨-, i, hdec, he⟩
  · exact nomatch he.symm.trans h
  · obtain rfl := Host.Outcome.next.inj (he.symm.trans h)
    exact ⟨_, rfl, .illegal e hdec⟩
  · obtain ⟨r, hr, ha⟩ := exec_answers hdec (he.symm.trans h)
    exact ⟨r, hr, ha.of_ports⟩

/-- Settles O41, by the responses a word can be given: each has one status, and `DATA` is what R67 says for it. -/
theorem dataOfEachOutcome : Obligations.DataOfEachOutcome := by
  intro s t w p rest r hh h hr
  obtain ⟨r', hr', ha⟩ := step_answers hh h
  obtain rfl : r' = r := List.singleton_inj.mp (List.append_cancel_left (hr'.symm.trans hr))
  have hcap : s.maxCount = 4 * s.maxUnits := rfl
  cases ha with
  | illegal e hdec => simp
  | access i e hloc => rcases locate_error hloc with ⟨rfl, -⟩ | ⟨rfl, -⟩ <;> simp
  | count hn => simp [← hcap, hn]
  | length hn => simp [← hcap, Nat.not_lt.mpr hn]
  | value i v hdec hval => simp [hdec, hval]
  | units hdec => simp [hdec]
  | done hget hexport => simp [hget, hexport]

/-! ### The response word -/

/-- Settles O10: the word is `DATA` above `STATUS` (R65), and each status has its own code (R66). -/
theorem responseWordLayout : Obligations.ResponseWordLayout := by
  refine ⟨fun r => ⟨?_, ?_⟩, rfl, rfl, rfl, rfl, rfl, fun st => ?_⟩
  · exact BitVec.extractLsb'_append_eq_right
  · exact BitVec.extractLsb'_append_eq_left
  · cases st <;> decide

/-! ### The payload's length and the sample words -/

/-- Settles O12: the other two ways of `step_command_cases` have a payload of the right length. -/
theorem wrongPayloadLengthStops : Obligations.WrongPayloadLengthStops := by
  intro s w p rest hh hne
  rcases step_command_cases hh with ⟨-, he⟩ | ⟨hp, -⟩ | ⟨hp, -⟩
  · exact he
  · exact absurd hp hne
  · exact absurd hp hne

/-- Settles O5: seven closed words. -/
theorem sampleWordsDecode : Obligations.SampleWordsDecode := by
  unfold Obligations.SampleWordsDecode
  decide

/-! ### The assembler -/

theorem fitsUnsigned_iff {n : Nat} : fitsUnsigned n = true ↔ n < 2 ^ 32 := by simp [fitsUnsigned]

theorem fitsSigned_iff {v : Int} : fitsSigned v = true ↔ -2 ^ 31 ≤ v ∧ v < 2 ^ 31 := by simp [fitsSigned]

theorem inUnsignedRange_iff {n : Int} : inUnsignedRange n = true ↔ 0 ≤ n ∧ n < 2 ^ 32 := by
  simp only [inUnsignedRange, fitsUnsigned, Bool.and_eq_true, decide_eq_true_eq]
  omega

theorem inByteRange_iff {b : Int} : inByteRange b = true ↔ 0 ≤ b ∧ b < 256 := by simp [inByteRange]

/-- An operand in the unsigned range is a number its field carries (R68). -/
theorem fitsUnsigned_of_inUnsignedRange {n : Int} (h : inUnsignedRange n = true) : fitsUnsigned n.toNat = true :=
  (Bool.and_eq_true_iff.mp h).2

/-- The operands of an `ADOPT` line are in range exactly when R68 says so. -/
theorem adoptInRange_iff {n : Int} {bs : List Int} :
    (inUnsignedRange n && fitsUnsigned bs.length && bs.all inByteRange) = true ↔
      0 ≤ n ∧ n < 2 ^ 32 ∧ bs.length < 2 ^ 32 ∧ ∀ b ∈ bs, 0 ≤ b ∧ b < 256 := by
  simp only [Bool.and_eq_true, inUnsignedRange_iff, fitsUnsigned_iff, List.all_eq_true, inByteRange_iff, and_assoc]

/-- A payload byte in range is assembled to the byte of that value (R68). -/
theorem toNat_ofInt_of_inByteRange {b : Int} (h : 0 ≤ b ∧ b < 256) : ((BitVec.ofInt 8 b).toNat : Int) = b := by
  rw [BitVec.toNat_ofInt]
  omega

/-- The payload of an `ADOPT` line reads back as its bytes (R68). -/
theorem map_toNat_ofInt {bs : List Int} (h : ∀ b ∈ bs, 0 ≤ b ∧ b < 256) :
    (bs.map (BitVec.ofInt 8)).map (fun b => (b.toNat : Int)) = bs := by
  rw [List.map_map]
  exact (List.map_congr_left fun b hb => toNat_ofInt_of_inByteRange (h b hb)).trans (List.map_id bs)

/-- An `INIT` line is encoded exactly when its operand is in range (R68). -/
theorem assemble_init (n : Int) :
    (0 ≤ n ∧ n < 2 ^ 32 → ∃ w, assemble (.init n) = some (.command w []) ∧
      decode w = .command (.init n.toNat)) ∧
    (¬(0 ≤ n ∧ n < 2 ^ 32) → assemble (.init n) = none) := by
  rw [← inUnsignedRange_iff]
  exact ⟨fun h => ⟨_, if_pos h, decode_encode (fitsUnsigned_of_inUnsignedRange h)⟩, fun h => if_neg h⟩

/-- As for `INIT`, for the count, the number of bytes and every byte; the bytes are the payload (R58, R68). -/
theorem assemble_adopt (n : Int) (bs : List Int) :
    (0 ≤ n ∧ n < 2 ^ 32 ∧ bs.length < 2 ^ 32 ∧ (∀ b ∈ bs, 0 ≤ b ∧ b < 256) →
      ∃ w p, assemble (.adopt n bs) = some (.command w p) ∧ decode w = .command (.adopt n.toNat bs.length) ∧
        p.length = payloadLength w ∧ p.map (fun b => (b.toNat : Int)) = bs) ∧
    (¬(0 ≤ n ∧ n < 2 ^ 32 ∧ bs.length < 2 ^ 32 ∧ ∀ b ∈ bs, 0 ≤ b ∧ b < 256) →
      assemble (.adopt n bs) = none) := by
  refine ⟨fun h => ?_, fun h => if_neg (mt adoptInRange_iff.mp h)⟩
  have hin := adoptInRange_iff.mpr h
  obtain ⟨hn, hn', hlen, hbs⟩ := h
  have hdec : decode (encode (.adopt n.toNat bs.length)) = .command (.adopt n.toNat bs.length) :=
    decode_encode (Bool.and_eq_true_iff.mpr
      ⟨fitsUnsigned_of_inUnsignedRange (inUnsignedRange_iff.mpr ⟨hn, hn'⟩), fitsUnsigned_iff.mpr hlen⟩)
  refine ⟨_, _, if_pos hin, hdec, ?_, map_toNat_ofInt hbs⟩
  rw [List.length_map, payloadLength_eq_payloadOf hdec]
  rfl

/-- As for `INIT`, for both signed operands (R68). -/
theorem assemble_set (i v : Int) :
    (-2 ^ 31 ≤ i ∧ i < 2 ^ 31 ∧ -2 ^ 31 ≤ v ∧ v < 2 ^ 31 →
      ∃ w, assemble (.set i v) = some (.command w []) ∧ decode w = .command (.set i v)) ∧
    (¬(-2 ^ 31 ≤ i ∧ i < 2 ^ 31 ∧ -2 ^ 31 ≤ v ∧ v < 2 ^ 31) → assemble (.set i v) = none) := by
  rw [← and_assoc, ← fitsSigned_iff, ← fitsSigned_iff, ← Bool.and_eq_true_iff]
  exact ⟨fun h => ⟨_, if_pos h, decode_encode h⟩, fun h => if_neg h⟩

/-- As for `INIT`, for the signed index (R68). -/
theorem assemble_get (i : Int) :
    (-2 ^ 31 ≤ i ∧ i < 2 ^ 31 →
      ∃ w, assemble (.get i) = some (.command w []) ∧ decode w = .command (.get i)) ∧
    (¬(-2 ^ 31 ≤ i ∧ i < 2 ^ 31) → assemble (.get i) = none) := by
  rw [← fitsSigned_iff]
  exact ⟨fun h => ⟨_, if_pos h, decode_encode h⟩, fun h => if_neg h⟩

/-- A raw word is taken as it is, if it is one of 80 bits (R69). -/
theorem assemble_word80 (n : Int) :
    (0 ≤ n ∧ n < 2 ^ 80 → assemble (.word80 n) = some (.command (BitVec.ofNat 80 n.toNat) [])) ∧
    (¬(0 ≤ n ∧ n < 2 ^ 80) → assemble (.word80 n) = none) := by
  have hin : (decide (0 ≤ n) && decide (n < 2 ^ 80)) = true ↔ 0 ≤ n ∧ n < 2 ^ 80 := by simp
  refine ⟨fun h => (if_pos (hin.mpr h)).trans ?_, fun h => if_neg (mt hin.mp h)⟩
  obtain ⟨m, rfl⟩ := Int.eq_ofNat_of_zero_le h.1
  rw [BitVec.ofInt_natCast, Int.toNat_natCast]

/-- Settles O46, one lemma for each form of line; `EXPORT` has no operand. -/
theorem assemblerEncodesInRange : Obligations.AssemblerEncodesInRange :=
  ⟨assemble_init, assemble_adopt, assemble_set, assemble_get, ⟨_, rfl, decode_encode rfl⟩, assemble_word80⟩

end Sys2Proof.Machine

/-! ## Construction: what `INIT` and `ADOPT` build, and that nothing of the old buffer enters it -/

namespace Sys2Proof.Machine

/-! ### The constructed buffer -/

/-- `COUNT` of a constructed buffer is the operand: it does not wrap (R17, R73). -/
theorem toNat_count_construct {n : Nat} (hn : n < 2 ^ 32) (bytes : List Byte) (s : State) :
    (construct n bytes s).count.toNat = n :=
  unsignedField_toNat (fitsUnsigned_iff.mpr hn)

/-- `SLEN` of a constructed buffer is the number of its units: it does not wrap (R19, R73). -/
theorem toNat_slen_construct (n : Nat) {bytes : List Byte} (hlen : bytes.length < 2 ^ 32) (s : State) :
    (construct n bytes s).slen.toNat = bytes.length :=
  unsignedField_toNat (fitsUnsigned_iff.mpr hlen)

/-- A constructed buffer depends on the count and the units alone, not on the state it replaces (R79). -/
theorem sameBuffer_construct (n : Nat) (bytes : List Byte) (s s' : State) :
    (construct n bytes s).SameBuffer (construct n bytes s') :=
  ⟨rfl, rfl, rfl⟩

/-- The units that `INIT n` writes (R74). -/
abbrev zeroUnits (n : Nat) : List Byte := List.replicate (ceil4 n) 0x00#8

theorem zeroUnits_length_lt {n : Nat} (hn : n < 2 ^ 32) : (zeroUnits n).length < 2 ^ 32 := by
  rw [List.length_replicate]
  exact ceil4_lt hn

/-- Every unit of a zero buffer reads 0, and so does what lies beyond it (R74, R76). -/
theorem unitRead_construct_zeroUnits (n k : Nat) (s : State) :
    (construct n (zeroUnits n) s).unitRead k = 0x00#8 := by
  refine (Memory.read_writeAll_nil k (zeroUnits n)).trans ?_
  rw [List.getElem?_replicate]
  split <;> rfl

/-- Every slot of a zero unit is 0 (R33). -/
theorem slotField_zero (c : Fin 4) : slotField 0x00#8 c = 0b00#2 := by revert c; decide

/-- A zero buffer of `n` values has a unit for each of them, and the value is 0 (R23, R76). -/
theorem val_construct_zeroUnits {n i : Nat} (hn : n < 2 ^ 32) (hi : i < n) (s : State) :
    (construct n (zeroUnits n) s).val i = some 0 := by
  have hunit : unitIndex i < ceil4 n := by
    unfold unitIndex ceil4
    omega
  rw [State.val, toNat_count_construct hn, toNat_slen_construct n (zeroUnits_length_lt hn),
    List.length_replicate, if_pos ⟨hi, hunit⟩, unitRead_construct_zeroUnits, slotField_zero]
  rfl

/-! ### What `INIT` and `ADOPT` do, by the outcome of their checks -/

theorem execInit_of_le {n : Nat} {s : State} (h : n ≤ s.maxCount) :
    execInit n s = .next ((construct n (zeroUnits n) s).pushRsp ⟨.ok, 0#32, []⟩) := by
  rcases execInit_cases n s with ⟨-, he⟩ | ⟨hgt, -⟩
  · exact he
  · exact absurd h (Nat.not_le.mpr hgt)

theorem execInit_of_gt {n : Nat} {s : State} (h : s.maxCount < n) :
    execInit n s = .next (s.pushRsp ⟨.capacityExceeded, unsignedField n, []⟩) := by
  rcases execInit_cases n s with ⟨hle, -⟩ | ⟨-, he⟩
  · exact absurd h (Nat.not_lt.mpr hle)
  · exact he

theorem execAdopt_of_count_gt {n len : Nat} {s : State} (hp : s.din.length = len) (h : s.maxCount < n) :
    execAdopt n len s = .next ((s.setDin []).pushRsp ⟨.capacityExceeded, unsignedField n, []⟩) := by
  rcases execAdopt_cases n len s with ⟨hne, -⟩ | ⟨-, -, he⟩ | ⟨-, hle, -⟩ | ⟨-, hle, -⟩
  · exact absurd hp hne
  · exact he
  · exact absurd h (Nat.not_lt.mpr hle)
  · exact absurd h (Nat.not_lt.mpr hle)

theorem execAdopt_of_length_gt {n len : Nat} {s : State} (hp : s.din.length = len) (hn : n ≤ s.maxCount)
    (h : s.maxUnits < len) :
    execAdopt n len s = .next ((s.setDin []).pushRsp ⟨.capacityExceeded, unsignedField len, []⟩) := by
  rcases execAdopt_cases n len s with ⟨hne, -⟩ | ⟨-, hgt, -⟩ | ⟨-, -, -, he⟩ | ⟨-, -, hle, -⟩
  · exact absurd hp hne
  · exact absurd hn (Nat.not_le.mpr hgt)
  · exact he
  · exact absurd h (Nat.not_lt.mpr hle)

theorem execAdopt_of_fits {n len : Nat} {s : State} (hp : s.din.length = len) (hn : n ≤ s.maxCount)
    (h : len ≤ s.maxUnits) :
    execAdopt n len s = .next (((construct n s.din s).setDin []).pushRsp ⟨.ok, 0#32, []⟩) := by
  rcases execAdopt_cases n len s with ⟨hne, -⟩ | ⟨-, hgt, -⟩ | ⟨-, -, hgt, -⟩ | ⟨-, -, -, he⟩
  · exact absurd hp hne
  · exact absurd hn (Nat.not_le.mpr hgt)
  · exact absurd h (Nat.not_le.mpr hgt)
  · exact he

/-! ### The empty buffer -/

/-- At `COUNT = 0` every index is out of range (R76, R83, R90). -/
theorem locate_of_count_zero {s : State} (h : s.count = 0#32) (i : Int) :
    locate i s = .error .indexOutOfRange := by
  refine locate_indexOutOfRange ?_
  rw [h, BitVec.toNat_zero]
  omega

theorem execSet_of_locate_error {i : Int} {s : State} {e : Status} (h : locate i s = .error e) (v : Int) :
    execSet i v s = .next (s.pushRsp ⟨e, signedField i, []⟩) := by
  rw [execSet, h]
  rfl

theorem execGet_of_locate_error {i : Int} {s : State} {e : Status} (h : locate i s = .error e) :
    execGet i s = .next (s.pushRsp ⟨e, signedField i, []⟩) := by
  rw [execGet, h]
  rfl

/-- At `SLEN = 0` the export is the empty sequence (R76, R96). -/
theorem execExport_of_slen_zero {s : State} (h : s.slen = 0#32) :
    execExport s = .next (s.pushRsp ⟨.ok, 0#32, []⟩) := by
  have hunits : s.units = [] := List.eq_nil_of_length_eq_zero (by rw [State.units_length, h]; rfl)
  rw [execExport_eq, hunits, h]

/-- Settles O21: within capacity the next state is the zero buffer with `OK`, and at `n = 0` that buffer has
`COUNT = 0` and `SLEN = 0`. -/
theorem initCornerValues : Obligations.InitCornerValues := by
  intro n s t hn hcap h
  obtain rfl := Host.Outcome.next.inj ((execInit_of_le hcap).symm.trans h)
  refine ⟨?_, fun i hi => val_construct_zeroUnits hn hi s, fun k c _ => ?_, ?_⟩
  · exact (toNat_slen_construct n (zeroUnits_length_lt hn) s).trans List.length_replicate
  · exact (congrArg (slotField · c) (unitRead_construct_zeroUnits n k s)).trans (slotField_zero c)
  · rintro rfl
    have hloc := locate_of_count_zero (s := (construct 0 (zeroUnits 0) s).pushRsp ⟨.ok, 0#32, []⟩) rfl
    exact ⟨fun i v => ⟨execSet_of_locate_error (hloc i) v, execGet_of_locate_error (hloc i)⟩,
      execExport_of_slen_zero rfl⟩

/-! ### A construction forgets the old buffer -/

/-- What `s'` answers is what `s` answered on its way to `t`, and if that is `OK` it holds the buffer of `t`. -/
def AnswersAlike (s s' t : State) (o : Host.Outcome State Fault Refusal) : Prop :=
  ∃ t' r, o = .next t' ∧ t.rsp = s.rsp ++ [r] ∧ t'.rsp = s'.rsp ++ [r] ∧ (r.status = .ok → t.SameBuffer t')

theorem execInit_answersAlike {n : Nat} {s s' t : State} (hmax : s.maxUnits = s'.maxUnits)
    (h : execInit n s = .next t) : AnswersAlike s s' t (execInit n s') := by
  have hcap : s.maxCount = s'.maxCount := congrArg Config.maxCount hmax
  rcases execInit_cases n s with ⟨hn, he⟩ | ⟨hn, he⟩ <;> obtain rfl := Host.Outcome.next.inj (he.symm.trans h)
  · exact ⟨_, _, execInit_of_le (hcap ▸ hn), rfl, rfl, fun _ => sameBuffer_construct n _ s s'⟩
  · exact ⟨_, _, execInit_of_gt (hcap ▸ hn), rfl, rfl, nofun⟩

theorem execAdopt_answersAlike {n len : Nat} {s s' t : State} (hmax : s.maxUnits = s'.maxUnits)
    (hdin : s.din = s'.din) (h : execAdopt n len s = .next t) : AnswersAlike s s' t (execAdopt n len s') := by
  have hcap : s.maxCount = s'.maxCount := congrArg Config.maxCount hmax
  rcases execAdopt_cases n len s with ⟨-, he⟩ | ⟨hp, hn, he⟩ | ⟨hp, hn, hlen, he⟩ | ⟨hp, hn, hlen, he⟩
  · exact nomatch he.symm.trans h
  · obtain rfl := Host.Outcome.next.inj (he.symm.trans h)
    exact ⟨_, _, execAdopt_of_count_gt (hdin ▸ hp) (hcap ▸ hn), rfl, rfl, nofun⟩
  · obtain rfl := Host.Outcome.next.inj (he.symm.trans h)
    exact ⟨_, _, execAdopt_of_length_gt (hdin ▸ hp) (hcap ▸ hn) (hmax ▸ hlen), rfl, rfl, nofun⟩
  · obtain rfl := Host.Outcome.next.inj (he.symm.trans h)
    exact ⟨_, _, execAdopt_of_fits (hdin ▸ hp) (hcap ▸ hn) (hmax ▸ hlen), rfl, rfl,
      fun _ => hdin ▸ sameBuffer_construct n s.din s s'⟩

/-- Settles O23: the checks look at the capacity and the payload only, and so does the buffer that is built. -/
theorem constructionForgetsOldBuffer : Obligations.ConstructionForgetsOldBuffer := by
  intro i s s' t hop hmax hdin h
  cases i with
  | init n => exact execInit_answersAlike hmax h
  | adopt n len => exact execAdopt_answersAlike hmax hdin h
  | set i v => exact hop.elim nofun nofun
  | get i => exact hop.elim nofun nofun
  | exportStorage => exact hop.elim nofun nofun

/-! ### `INIT` and then `EXPORT` -/

/-- `INIT` within capacity, as an input: one `OK`, and a buffer of `ceil4 n` zero units (R74). -/
theorem takeInput_init {n : Nat} {s : State} (hn : n < 2 ^ 32) (hcap : n ≤ s.maxCount) :
    ∃ t, takeInput (commandOf (.init n) []) s = .next t ∧ t.rsp = s.rsp ++ [⟨.ok, 0#32, []⟩] ∧
      t.slen = BitVec.ofNat 32 (ceil4 n) ∧ t.units = zeroUnits n :=
  ⟨_, (takeInput_commandOf (i := .init n) (fitsUnsigned_iff.mpr hn) rfl s).trans
      (execInit_of_le (s := s.setDin []) hcap),
    rfl, congrArg (BitVec.ofNat 32) List.length_replicate,
    units_construct n (zeroUnits_length_lt hn) (s.setDin [])⟩

/-- `EXPORT` as an input: the units in transport order (R96). -/
theorem takeInput_export (s : State) : takeInput (commandOf .exportStorage []) s =
    .next ((s.setDin []).pushRsp ⟨.ok, s.slen, s.units⟩) :=
  takeInput_commandOf (i := .exportStorage) rfl rfl s

/-- Settles O36: `INIT` leaves the zero buffer, and `EXPORT` answers its units. -/
theorem initThenExportCapacity : Obligations.InitThenExportCapacity := by
  intro n s hn hcap _
  obtain ⟨t, ht, hrsp, hslen, hunits⟩ := takeInput_init (s := s) hn hcap
  refine ⟨_, (runInputs_cons_of_next ht _).trans (runInputs_cons_of_next (takeInput_export t) []), ?_⟩
  rw [State.pushRsp_rsp, State.setDin_rsp, hrsp, hslen, hunits]
  exact List.append_assoc s.rsp _ _

/-! ### The two commands and their words -/

/-- A word with an assigned opcode and a field that must be zero and is not is rejected for that field (R61,
R62). -/
theorem decode_of_breaksEncoding {w : CmdWord} {o : Opcode} (hop : opField w = o.code)
    (h : BreaksEncoding w) : decode w = .illegal (.nonzeroField o.code) :=
  decode_of_not_selects hop (Bool.eq_false_iff.mpr fun hs => not_breaksEncoding_of_selects hs h)

/-- Settles O20: the zero buffer within capacity, the one error beyond it, and the word's zero fields. -/
theorem initBuildsZeroBuffer : Obligations.InitBuildsZeroBuffer := by
  refine ⟨fun n s hn => ⟨fun hcap => ?_, execInit_of_gt⟩, fun w hop hne => ?_⟩
  · have hlen := zeroUnits_length_lt hn
    exact ⟨_, execInit_of_le hcap, toNat_count_construct hn (zeroUnits n) s,
      (toNat_slen_construct n hlen s).trans List.length_replicate,
      fun k => (unitAt_construct n hlen s k).trans List.getElem?_replicate, rfl, rfl, rfl, rfl⟩
  · refine decode_of_breaksEncoding (o := .init) hop ?_
    rcases hne with hrsv | hb
    · exact .inr (.inr (.inl hrsv))
    · exact .inr (.inr (.inr (.inl ⟨.inl hop, hb⟩)))

/-- Settles O22: the three outcomes of `ADOPT` with its payload on `din`, and the word's `RSV`. -/
theorem adoptTakesPayloadAsGiven : Obligations.AdoptTakesPayloadAsGiven := by
  refine ⟨fun n len s hn hlen hp => ⟨execAdopt_of_count_gt hp, execAdopt_of_length_gt hp,
    fun hcap hfit => ?_⟩, fun w hop hrsv => ?_⟩
  · have hdin : s.din.length < 2 ^ 32 := hp ▸ hlen
    exact ⟨_, execAdopt_of_fits hp hcap hfit, toNat_count_construct hn s.din s,
      (toNat_slen_construct n hdin s).trans hp, unitAt_construct n hdin s, rfl, rfl, rfl, rfl⟩
  · exact decode_of_breaksEncoding (o := .adopt) hop (.inr (.inr (.inl hrsv)))

end Sys2Proof.Machine

/-! ## Access: what `SET` and `GET` do past their checks, and what any sequence of accesses keeps -/

namespace Sys2Proof.Machine

/-! ### `SET` and `GET` past both checks -/

theorem locate_of_lt {i : Int} {s : State} (h0 : 0 ≤ i) (hcount : i < s.count.toNat)
    (hslen : i.toNat / 4 < s.slen.toNat) : locate i s = .ok (i.toNat / 4, slotIndex i.toNat) :=
  locate_eq_ok.mpr ⟨h0, hcount, hslen, rfl, rfl⟩

/-- No two indices lie in the same slot (R32). -/
theorem index_eq_of_locate {i j : Int} {s : State} {p : Nat × Fin 4} (hi : locate i s = .ok p)
    (hj : locate j s = .ok p) : i = j := by
  obtain ⟨hi0, -, -, hiu, hit⟩ := locate_eq_ok.mp hi
  obtain ⟨hj0, -, -, hju, hjt⟩ := locate_eq_ok.mp hj
  have := index_eq_of_unit_of_slot (hiu.symm.trans hju) (hit.symm.trans hjt)
  omega

theorem execSet_of_locate_ok {i : Int} {s : State} {u : Nat} {c : Fin 4} (h : locate i s = .ok (u, c)) (v : Int) :
    execSet i v s = .next ((s.setMem (setMemory v u c s)).pushRsp ⟨.ok, 0#32, []⟩) := by
  rw [execSet, h]
  rfl

theorem execGet_of_locate_ok {i : Int} {s : State} {u : Nat} {c : Fin 4} (h : locate i s = .ok (u, c)) :
    execGet i s = .next (s.pushRsp ⟨.ok, BitVec.ofNat 32 (getValue u c s).val, []⟩) := by
  rw [execGet, h]
  rfl

/-- `val_setMemory_same` at the index that the command carries (R86). -/
theorem val_toNat_setMemory {s : State} (hm : Memory.wf s.mem = true) {i : Int} {u : Nat} {c : Fin 4}
    (h : locate i s = .ok (u, c)) (v : Int) :
    (s.setMem (setMemory v u c s)).val i.toNat = some (clamp3 v) := by
  obtain ⟨h0, -⟩ := locate_eq_ok.mp h
  exact val_setMemory_same hm (by rwa [Int.toNat_of_nonneg h0]) v

/-- Settles O24: the two errors of `locate`, the write past them, and the word's `RSV`. -/
theorem setStoresClampedValue : Obligations.SetStoresClampedValue := by
  refine ⟨fun i v s hm => ⟨fun hi => ?_, fun h0 hcount hslen => ?_, fun h0 hcount hslen => ?_⟩,
    fun w hop hrsv => ?_⟩
  · exact execSet_of_locate_error (locate_indexOutOfRange hi) v
  · exact execSet_of_locate_error (locate_storageBounds h0 hcount hslen) v
  · have hloc := locate_of_lt h0 hcount hslen
    exact ⟨_, execSet_of_locate_ok hloc v, (unitRead_unitWrite hm _ _ _).trans (if_pos rfl),
      fun k hk => (unitRead_unitWrite hm _ k _).trans (if_neg hk), val_toNat_setMemory hm hloc v,
      rfl, rfl, rfl, rfl, rfl, rfl⟩
  · exact decode_of_breaksEncoding (o := .set) hop (.inr (.inr (.inl hrsv)))

/-- `SET` looks at its value through the clamp only (R84). -/
theorem execSet_clamp3 (i v : Int) (s : State) : execSet i v s = execSet i (clamp3 v).val s := by
  unfold execSet
  rw [clamp3_clamp3]

/-- Settles O25: only `clamp3 v` enters, and past both checks the answer is `OK` whatever `v` is. -/
theorem setClampIsSilent : Obligations.SetClampIsSilent := by
  refine fun i v s => ⟨execSet_clamp3 i v s, fun hm h0 hcount hslen => ?_⟩
  have hloc := locate_of_lt h0 hcount hslen
  exact ⟨_, execSet_of_locate_ok hloc v, rfl, val_toNat_setMemory hm hloc v⟩

/-- The value of a slot from its two flag bits: "ge2" has weight 2, "odd" has weight 1 (R34, R35). -/
theorem dec2_slotField_val (b : Byte) (t : Fin 4) :
    (dec2 (slotField b t)).val =
      (if b.getLsbD (2 * t.val) then 2 else 0) + (if b.getLsbD (2 * t.val + 1) then 1 else 0) := by
  have hge2 : (slotField b t)[0] = b.getLsbD (2 * t.val) := getLsbD_slotField b t (k := 0) (by omega)
  have hodd : (slotField b t)[1] = b.getLsbD (2 * t.val + 1) := getLsbD_slotField b t (k := 1) (by omega)
  rw [dec2_val, hge2, hodd]
  cases b.getLsbD (2 * t.val) <;> cases b.getLsbD (2 * t.val + 1) <;> rfl

/-- Settles O28: the two errors of `locate`, the two flags past them, and the word's zero fields. -/
theorem getReadsTwoFlags : Obligations.GetReadsTwoFlags := by
  refine ⟨fun i s => ⟨fun hi => ?_, fun h0 hcount hslen => ?_, fun h0 hcount hslen => ?_⟩,
    fun w hop hne => decode_of_breaksEncoding (o := .get) hop ?_⟩
  · exact execGet_of_locate_error (locate_indexOutOfRange hi)
  · exact execGet_of_locate_error (locate_storageBounds h0 hcount hslen)
  · have hget := execGet_of_locate_ok (locate_of_lt h0 hcount hslen)
    rwa [getValue, dec2_slotField_val] at hget
  · rcases hne with hrsv | hb
    · exact .inr (.inr (.inl hrsv))
    · exact .inr (.inr (.inr (.inl ⟨.inr (.inl hop), hb⟩)))

/-! ### What reads change, and what they depend on -/

/-- Settles O29: every outcome of `GET`, and the one of `EXPORT`, is a response. -/
theorem readsChangeNothing : Obligations.ReadsChangeNothing := by
  refine fun i s => ⟨?_, _, execExport_eq s⟩
  rcases execGet_cases i s with ⟨e, -, he⟩ | ⟨u, c, -, he⟩ <;> exact ⟨_, he⟩

/-- Settles O30: `locate` is the same in both states, and where it finds a slot the field there is too. -/
theorem getSeesOnlyItsSlot : Obligations.GetSeesOnlyItsSlot := by
  intro i s s' hcount hslen hslot
  have hsame : locate i s = locate i s' := locate_congr i hcount hslen
  rcases execGet_cases i s with ⟨e, herr, he⟩ | ⟨u, c, hloc, he⟩
  · exact ⟨_, he, execGet_of_locate_error (hsame.symm.trans herr)⟩
  · refine ⟨_, he, ?_⟩
    rw [getValue, hslot u c hloc]
    exact execGet_of_locate_ok (hsame.symm.trans hloc)

/-! ### The frame of `SET` -/

/-- A write to one unit keeps every other, and which units exist (R31, R86). -/
theorem unitAt_setMemory_ne {s : State} (hm : Memory.wf s.mem = true) (v : Int) {u k : Nat} (c : Fin 4)
    (hk : k ≠ u) : (s.setMem (setMemory v u c s)).unitAt k = s.unitAt k := by
  have hread : (s.setMem (setMemory v u c s)).unitRead k = s.unitRead k :=
    (unitRead_unitWrite hm u k _).trans (if_neg hk)
  rw [State.unitAt, hread, State.setMem_slen, State.unitAt]

/-- Settles O26: a failed `SET` only responds; one past both checks writes the field that `locate` gives. -/
theorem setChangesOnlyItsSlot : Obligations.SetChangesOnlyItsSlot := by
  intro i v s t hm h
  rcases execSet_cases i v s with ⟨e, herr, he⟩ | ⟨u, c, hloc, he⟩ <;>
    obtain rfl := Host.Outcome.next.inj (he.symm.trans h)
  · exact ⟨rfl, rfl, rfl, rfl, rfl, ⟨_, rfl⟩, fun _ _ hok => absurd (herr.symm.trans hok) nofun,
      fun _ _ _ => rfl, fun _ _ => rfl⟩
  · refine ⟨rfl, rfl, rfl, rfl, rfl, ⟨_, rfl⟩, fun u' c' hok => ?_,
      fun _ herr => absurd (herr.symm.trans hloc) nofun, fun j hj => val_setMemory_ne hm hloc hj v⟩
    obtain ⟨rfl, rfl⟩ := Prod.mk.inj (Except.ok.inj (hloc.symm.trans hok))
    exact ⟨fun k hk => unitAt_setMemory_ne hm v c hk, fun c' hc =>
      (slotField_read_setMemory hm v u u c c').trans (if_neg fun h => hc h.2)⟩

/-! ### Sequences of two `SET`s, slot by slot -/

/-- What every `SET` does to the block's own state, failing or not: it keeps `COUNT` and `SLEN`, and only the
field of the slot that `locate` finds, if any, becomes that of the clamped value (R83 to R87). -/
structure SetEffect (i v : Int) (s t : State) : Prop where
  registers : t.SameRegisters s
  wf : Memory.wf t.mem = true
  slot (k : Nat) (c : Fin 4) : slotField (t.unitRead k) c =
    if locate i s = .ok (k, c) then enc2 (clamp3 v) else slotField (s.unitRead k) c

/-- `SET` completes in every state, with its effect (R105). -/
theorem exec_setEffect (i v : Int) {s : State} (hm : Memory.wf s.mem = true) :
    ∃ t, exec (.set i v) s = .next t ∧ SetEffect i v s t := by
  rcases execSet_cases i v s with ⟨e, herr, he⟩ | ⟨u, c, hloc, he⟩
  · refine ⟨_, he, ⟨rfl, rfl⟩, hm, fun k c => ?_⟩
    rw [herr, if_neg nofun]
    rfl
  · refine ⟨_, he, ⟨rfl, rfl⟩, Memory.wf_write hm _ _, fun k c' => ?_⟩
    refine (slotField_read_setMemory hm v u k c c').trans (if_congr ?_ rfl rfl)
    rw [hloc, Except.ok.injEq, Prod.mk.injEq, @eq_comm _ k, @eq_comm _ c']

/-- A `SET` moves no index (R32, R87). -/
theorem SetEffect.locate_eq {i v : Int} {s t : State} (h : SetEffect i v s t) (j : Int) :
    locate j t = locate j s :=
  locate_congr j h.registers.1 h.registers.2

/-- Two canonical states with equal registers and equal slots hold the same buffer (R13). -/
theorem sameBuffer_of_slots {s t : State} (hreg : s.SameRegisters t) (hs : Memory.wf s.mem = true)
    (ht : Memory.wf t.mem = true) (h : ∀ k c, slotField (s.unitRead k) c = slotField (t.unitRead k) c) :
    s.SameBuffer t :=
  ⟨hreg.1, hreg.2, Memory.wf_ext hs ht fun k => byte_ext_slotField (h k)⟩

theorem State.SameRegisters.trans {s t u : State} (h : s.SameRegisters t) (h' : t.SameRegisters u) :
    s.SameRegisters u :=
  ⟨h.1.trans h'.1, h.2.trans h'.2⟩

theorem State.SameRegisters.symm {s t : State} (h : s.SameRegisters t) : t.SameRegisters s :=
  ⟨h.1.symm, h.2.symm⟩

/-- Settles O32: slot by slot, the second `SET` overwrites the only field the first could change. -/
theorem lastWriteWins : Obligations.LastWriteWins := by
  intro i v1 v2 s hm
  obtain ⟨t1, he1, h1⟩ := exec_setEffect i v1 hm
  obtain ⟨t2, he2, h2⟩ := exec_setEffect i v2 h1.wf
  obtain ⟨t, he, h⟩ := exec_setEffect i v2 hm
  have hreg : t2.SameRegisters t := (h2.registers.trans h1.registers).trans h.registers.symm
  refine ⟨t1, t2, t, he1, he2, he, sameBuffer_of_slots hreg h2.wf h.wf fun k c => ?_⟩
  rw [h2.slot, h1.slot, h.slot, h1.locate_eq]
  by_cases hloc : locate i s = .ok (k, c)
  · rw [if_pos hloc, if_pos hloc]
  · rw [if_neg hloc, if_neg hloc, if_neg hloc]

/-- Settles O33: no slot is that of both indices, so on every slot the two `SET`s commute. -/
theorem setsAtDifferentIndicesCommute : Obligations.SetsAtDifferentIndicesCommute := by
  intro i j v w s hm hij
  obtain ⟨t1, he1, h1⟩ := exec_setEffect i v hm
  obtain ⟨t2, he2, h2⟩ := exec_setEffect j w h1.wf
  obtain ⟨t1', he1', h1'⟩ := exec_setEffect j w hm
  obtain ⟨t2', he2', h2'⟩ := exec_setEffect i v h1'.wf
  have hreg : t2.SameRegisters t2' :=
    (h2.registers.trans h1.registers).trans (h2'.registers.trans h1'.registers).symm
  refine ⟨t1, t2, t1', t2', he1, he2, he1', he2', sameBuffer_of_slots hreg h2.wf h2'.wf fun k c => ?_⟩
  rw [h2.slot, h1.slot, h2'.slot, h1'.slot, h1.locate_eq, h1'.locate_eq]
  exact ite_ite_comm _ _ _ _ fun hj hi => hij (index_eq_of_locate hi hj)

/-! ### Any sequence of accesses -/

/-- What any sequence of accesses can do to the block's own state: it keeps `COUNT` and `SLEN`, and every slot
that no index reaches, such as filler, holds the same field (R89). -/
structure AccessEffect (s t : State) : Prop where
  registers : t.SameRegisters s
  wf : Memory.wf t.mem = true
  slot (k : Nat) (c : Fin 4) (h : ∀ i, locate i s ≠ .ok (k, c)) :
    slotField (t.unitRead k) c = slotField (s.unitRead k) c

theorem AccessEffect.of_sameBuffer {s t : State} (hm : Memory.wf s.mem = true) (h : t.SameBuffer s) :
    AccessEffect s t := by
  obtain ⟨hcount, hslen, hmem⟩ := h
  exact ⟨⟨hcount, hslen⟩, hmem ▸ hm, fun k c _ => by rw [State.unitRead, hmem, State.unitRead]⟩

theorem AccessEffect.trans {s t u : State} (h : AccessEffect s t) (h' : AccessEffect t u) : AccessEffect s u where
  registers := h'.registers.trans h.registers
  wf := h'.wf
  slot k c hout := by
    have hout' (i : Int) : locate i t ≠ .ok (k, c) := by
      rw [locate_congr i h.registers.1 h.registers.2]
      exact hout i
    exact (h'.slot k c hout').trans (h.slot k c hout)

theorem SetEffect.accessEffect {i v : Int} {s t : State} (h : SetEffect i v s t) : AccessEffect s t :=
  ⟨h.registers, h.wf, fun k c hout => (h.slot k c).trans (if_neg (hout i))⟩

/-- `SET`, `GET` and `EXPORT` complete in every state, with the effect of an access (R127). -/
theorem exec_accessEffect {c : Instr} {s : State} (hm : Memory.wf s.mem = true) (hinit : c.opcode ≠ .init)
    (hadopt : c.opcode ≠ .adopt) : ∃ t, exec c s = .next t ∧ AccessEffect s t := by
  cases c with
  | init n => exact absurd rfl hinit
  | adopt n len => exact absurd rfl hadopt
  | set i v =>
    obtain ⟨t, he, h⟩ := exec_setEffect i v hm
    exact ⟨t, he, h.accessEffect⟩
  | get i =>
    rcases execGet_cases i s with ⟨e, -, he⟩ | ⟨u, c, -, he⟩ <;>
      exact ⟨_, he, .of_sameBuffer hm ⟨rfl, rfl, rfl⟩⟩
  | exportStorage => exact ⟨_, execExport_eq s, .of_sameBuffer hm ⟨rfl, rfl, rfl⟩⟩

/-- The inputs of `HostInput.keepsBuffer` are command words with their payload, and the legal ones decode to no
construction command. -/
theorem HostInput.keepsBuffer_cases {x : HostInput} (h : x.keepsBuffer = true) :
    ∃ w p, x = .command w p ∧ p.length = payloadLength w ∧
      ∀ c, decode w = .command c → c.opcode ≠ .init ∧ c.opcode ≠ .adopt := by
  cases x with
  | reset => exact nomatch h
  | resetDuring w p => exact nomatch h
  | command w p =>
    obtain ⟨hp, hw⟩ := Bool.and_eq_true_iff.mp h
    refine ⟨w, p, rfl, of_decide_eq_true hp, fun c hc => ?_⟩
    rw [hc] at hw
    cases c with
    | init n => exact nomatch hw
    | adopt n len => exact nomatch hw
    | set j v => exact ⟨nofun, nofun⟩
    | get j => exact ⟨nofun, nofun⟩
    | exportStorage => exact ⟨nofun, nofun⟩

theorem takeInput_accessEffect {x : HostInput} {s : State} (hm : Memory.wf s.mem = true)
    (hx : x.keepsBuffer = true) : ∃ t, takeInput x s = .next t ∧ AccessEffect s t := by
  obtain ⟨w, p, rfl, hp, hc⟩ := HostInput.keepsBuffer_cases hx
  rcases runCommand_cases w (s.setDin p) with ⟨hne, -⟩ | ⟨-, r, -, he⟩ | ⟨-, c, hdec, he⟩
  · exact absurd hp hne
  · exact ⟨_, he, .of_sameBuffer hm ⟨rfl, rfl, rfl⟩⟩
  · obtain ⟨hinit, hadopt⟩ := hc c hdec
    obtain ⟨t, ht, h⟩ := exec_accessEffect (s := s.setDin p) hm hinit hadopt
    have hdin : AccessEffect s (s.setDin p) := .of_sameBuffer hm ⟨rfl, rfl, rfl⟩
    exact ⟨t, he.trans ht, hdin.trans h⟩

/-- Any number of commands that build no buffer completes, with the effect of an access. -/
theorem runInputs_accessEffect {xs : List HostInput} {s : State} (hm : Memory.wf s.mem = true)
    (hxs : ∀ x ∈ xs, x.keepsBuffer = true) : ∃ t, runInputs xs s = .next t ∧ AccessEffect s t := by
  induction xs generalizing s with
  | nil => exact ⟨s, rfl, .of_sameBuffer hm ⟨rfl, rfl, rfl⟩⟩
  | cons x xs ih =>
    obtain ⟨hx, hxs⟩ := List.forall_mem_cons.mp hxs
    obtain ⟨u, hu, h⟩ := takeInput_accessEffect hm hx
    obtain ⟨t, ht, h'⟩ := ih h.wf hxs
    exact ⟨t, (runInputs_cons_of_next hu xs).trans ht, h.trans h'⟩

/-- Settles O27: no index reaches a filler slot, nor any slot from `SLEN` up. -/
theorem fillerSurvivesAccesses : Obligations.FillerSurvivesAccesses := by
  intro xs s hm hxs
  obtain ⟨t, ht, h⟩ := runInputs_accessEffect hm hxs
  refine ⟨t, ht, h.registers.1, h.registers.2, fun k c hfill => ?_, fun k hk => ?_⟩
  · exact h.slot k c fun i hloc => Bool.false_ne_true ((isFiller_eq_false_of_locate hloc).symm.trans hfill)
  · refine byte_ext_slotField fun c => h.slot k c fun i hloc => ?_
    obtain ⟨-, -, hlt, hu, -⟩ := locate_eq_ok.mp hloc
    exact absurd hlt (Nat.not_lt.mpr (hu ▸ hk))

end Sys2Proof.Machine

/-! ## Transport: `EXPORT`, and the buffer that an `ADOPT` of its payload gives back -/

namespace Sys2Proof.Machine

/-! ### What `EXPORT` answers -/

/-- Settles O34: the payload is `State.units`, and `EXPORT` has no operand field. -/
theorem exportReturnsAllUnits : Obligations.ExportReturnsAllUnits := by
  refine ⟨fun s => ⟨s.units, execExport_eq s, s.units_length, s.units_getElem?⟩, fun w hop hne =>
    decode_of_breaksEncoding (o := .exportStorage) hop ?_⟩
  rcases hne with hrsv | ha | hb
  · exact .inr (.inr (.inl hrsv))
  · exact .inr (.inr (.inr (.inr ⟨hop, ha⟩)))
  · exact .inr (.inr (.inr (.inl ⟨.inr (.inr hop), hb⟩)))

/-! ### The same buffer answers the same -/

theorem State.SameBuffer.symm {s t : State} (h : s.SameBuffer t) : t.SameBuffer s := by
  obtain ⟨hcount, hslen, hmem⟩ := h
  exact ⟨hcount.symm, hslen.symm, hmem.symm⟩

/-- `GET` answers from the block's own state (R13, R93). -/
theorem execGet_of_sameBuffer {s t : State} (h : s.SameBuffer t) (i : Int) :
    ∃ r, exec (.get i) s = .next (s.pushRsp r) ∧ exec (.get i) t = .next (t.pushRsp r) := by
  obtain ⟨hcount, hslen, hmem⟩ := h
  exact getSeesOnlyItsSlot i s t hcount hslen fun u c _ => by rw [State.unitRead, hmem, State.unitRead]

/-- `EXPORT` answers from the block's own state (R13, R96). -/
theorem execExport_of_sameBuffer {s t : State} (h : s.SameBuffer t) :
    ∃ r, exec .exportStorage s = .next (s.pushRsp r) ∧ exec .exportStorage t = .next (t.pushRsp r) := by
  obtain ⟨-, hslen, hmem⟩ := h
  refine ⟨_, execExport_eq s, ?_⟩
  rw [hslen, State.units_congr hslen hmem]
  exact execExport_eq t

/-! ### Transport -/

/-- A buffer of the invariant is rebuilt from its count and its exported units, on any state (R99). The invariant
enters by the store alone: it is canonical and lists no unit from `SLEN` up. -/
theorem sameBuffer_construct_units {s : State} (hs : s.Inv) (s' : State) :
    (construct s.count.toNat s.units s').SameBuffer s := by
  obtain ⟨-, -, -, hwf, hbelow, -⟩ := hs
  refine ⟨unsignedField_of_toNat s.count, ?_, writeAll_units hwf hbelow⟩
  exact (congrArg unsignedField s.units_length).trans (unsignedField_of_toNat s.slen)

/-- The exported payload passes both checks of `ADOPT` at the same capacity (R29, R78). -/
theorem execAdopt_units {s s' : State} (hs : s.Inv) (hmax : s'.maxUnits = s.maxUnits) :
    execAdopt s.count.toNat s.units.length (s'.setDin s.units) =
      .next (((construct s.count.toNat s.units s').setDin []).pushRsp ⟨.ok, 0#32, []⟩) := by
  obtain ⟨-, hcount, hslen, -, -, -⟩ := hs
  have hcap : s.maxCount = s'.maxCount := congrArg Config.maxCount hmax.symm
  refine execAdopt_of_fits rfl (hcap ▸ hcount) ?_
  rw [State.units_length]
  exact hslen.trans_eq hmax.symm

/-- Settles O35: `ADOPT` rebuilds the exporting machine's buffer, and the same buffer answers the same. -/
theorem transportRoundTrip : Obligations.TransportRoundTrip := by
  intro s s' hs hmax
  have hbuf := sameBuffer_construct_units hs s'
  have hback : s.SameBuffer (((construct s.count.toNat s.units s').setDin []).pushRsp ⟨.ok, 0#32, []⟩) :=
    hbuf.symm
  exact ⟨s.units, _, execExport_eq s, execAdopt_units hs hmax, rfl, hbuf, execGet_of_sameBuffer hback,
    execExport_of_sameBuffer hback⟩

end Sys2Proof.Machine

/-! ## Whole commands: the function of R122, which command raises which error, and what an error leaves behind -/

namespace Sys2Proof.Machine

/-! ### The two accounts of a command -/

/-- Run on `s`, the outcome `o` is what `a`, an answer of the function of R122, says: its response, and its count
and units if the store of `s` is in canonical form. -/
def AgreesWith (s : State) (a : PbaState × Response) (o : Host.Outcome State Fault Refusal) : Prop :=
  ∃ t, o = .next t ∧ t.host = s.host ∧ t.rsp = s.rsp ++ [a.2] ∧ (Memory.wf s.mem = true → t.abstract = a.1)

/-- A response alone leaves the count and the units as they were (R9). -/
theorem agreesWith_pushRsp (s : State) (r : Response) : AgreesWith s (s.abstract, r) (.next (s.pushRsp r)) :=
  ⟨_, rfl, rfl, rfl, fun _ => rfl⟩

/-- What R28's structure holds of a constructed buffer: neither register wraps. -/
theorem abstract_construct {n : Nat} {bytes : List Byte} (hn : n < 2 ^ 32) (hlen : bytes.length < 2 ^ 32)
    (s : State) : (construct n bytes s).abstract = ⟨n, bytes⟩ := by
  rw [State.abstract, toNat_count_construct hn, units_construct n hlen]

/-- A write to a unit that exists modifies it in R28's list of bytes (R86). -/
theorem units_unitWrite {s : State} (hm : Memory.wf s.mem = true) (u : Nat) (f : Byte → Byte) :
    (s.unitWrite u (f (s.unitRead u))).units = s.units.modify u f := by
  refine List.ext_getElem? fun k => ?_
  rw [List.getElem?_modify, State.units_getElem?, State.units_getElem?, State.unitAt, State.unitAt,
    unitRead_unitWrite hm, unitWrite_eq, State.setMem_slen]
  by_cases hk : k < s.slen.toNat
  · rw [if_pos hk, if_pos hk]
    by_cases hu : u = k
    · simp [hu]
    · simp [hu, Ne.symm hu]
  · simp [hk]

/-- R28's list of bytes holds at a unit that exists what the store holds there (R37). -/
theorem units_getD {s : State} {u : Nat} (hu : u < s.slen.toNat) : s.units.getD u 0x00#8 = s.unitRead u := by
  rw [List.getD_eq_getElem?_getD, State.units_getElem?, State.unitAt, if_pos hu, Option.getD_some]

/-- The two checks of an access in the order of R106, when the first that fails is `e`. -/
theorem accessChecks_of_locate_error {α : Type} {i : Int} {s : State} {e : Status} (h : locate i s = .error e)
    (raised : Status → α) (done : α) :
    (if i < 0 ∨ i ≥ s.abstract.count then raised .indexOutOfRange
      else if i.toNat / 4 ≥ s.abstract.store.length then raised .storageBounds else done) = raised e := by
  simp only [State.abstract, State.units_length]
  rcases locate_error h with ⟨rfl, hi⟩ | ⟨rfl, h0, hcount, hslen⟩
  · exact if_pos hi
  · rw [if_neg (by omega), if_pos hslen]

/-- The two checks of an access, when neither fails. -/
theorem accessChecks_of_locate_ok {α : Type} {i : Int} {s : State} {u : Nat} {c : Fin 4}
    (h : locate i s = .ok (u, c)) (x y done : α) :
    (if i < 0 ∨ i ≥ s.abstract.count then x
      else if i.toNat / 4 ≥ s.abstract.store.length then y else done) = done := by
  obtain ⟨h0, hcount, hslen, -, -⟩ := locate_eq_ok.mp h
  simp only [State.abstract, State.units_length]
  rw [if_neg (by omega), if_neg (by omega)]

section
variable {w : CmdWord} (s : State)

/-- The `INIT` row of R122 (R74, R75). -/
theorem execInit_agreesWith (hdec : decode w = .command (.init (aField w).toNat)) (p : List Byte) :
    AgreesWith s (wholeStep s.maxUnits s.abstract w p) (execInit (aField w).toNat s) := by
  have hn := (aField w).isLt
  have hcases := execInit_cases (aField w).toNat s
  rw [State.maxCount] at hcases
  simp only [wholeStep, hdec]
  rcases hcases with ⟨hle, he⟩ | ⟨hgt, he⟩
  · rw [he, if_neg (Nat.not_lt.mpr hle)]
    exact ⟨_, rfl, rfl, rfl, fun _ => abstract_construct hn (zeroUnits_length_lt hn) s⟩
  · rw [he, if_pos hgt, unsignedField_of_toNat]
    exact agreesWith_pushRsp s _

/-- The `ADOPT` row of R122, the payload being the one on `din` (R77, R78). -/
theorem execAdopt_agreesWith (hdec : decode w = .command (.adopt (aField w).toNat (bField w).toNat))
    (hp : s.din.length = (bField w).toNat) :
    AgreesWith s (wholeStep s.maxUnits s.abstract w s.din)
      (execAdopt (aField w).toNat (bField w).toNat s) := by
  have hlen : s.din.length < 2 ^ 32 := hp ▸ (bField w).isLt
  have hcases := execAdopt_cases (aField w).toNat (bField w).toNat s
  rw [State.maxCount] at hcases
  simp only [wholeStep, hdec]
  rcases hcases with
    ⟨hne, -⟩ | ⟨-, hgt, he⟩ | ⟨-, hle, hgt, he⟩ | ⟨-, hle, hle', he⟩
  · exact absurd hp hne
  · rw [he, if_pos hgt, unsignedField_of_toNat]
    exact agreesWith_pushRsp (s.setDin []) _
  · rw [he, if_neg (Nat.not_lt.mpr hle), if_pos hgt, unsignedField_of_toNat]
    exact agreesWith_pushRsp (s.setDin []) _
  · rw [he, if_neg (Nat.not_lt.mpr hle), if_neg (Nat.not_lt.mpr hle')]
    exact ⟨_, rfl, rfl, rfl, fun _ => abstract_construct (aField w).isLt hlen s⟩

/-- The `SET` row of R122 (R83, R85, R86). -/
theorem execSet_agreesWith (hdec : decode w = .command (.set (aField w).toInt (bField w).toInt))
    (p : List Byte) : AgreesWith s (wholeStep s.maxUnits s.abstract w p)
      (execSet (aField w).toInt (bField w).toInt s) := by
  simp only [wholeStep, hdec]
  rcases execSet_cases (aField w).toInt (bField w).toInt s with ⟨e, herr, he⟩ | ⟨u, c, hloc, he⟩
  · rw [he, signedField_of_toInt,
      accessChecks_of_locate_error herr (fun e => (s.abstract, (⟨e, aField w, []⟩ : Response)))]
    exact agreesWith_pushRsp s _
  · rw [he, accessChecks_of_locate_ok hloc]
    obtain ⟨-, -, -, rfl, rfl⟩ := locate_eq_ok.mp hloc
    exact ⟨_, rfl, rfl, rfl, fun hm => congrArg (PbaState.mk s.count.toNat)
      (units_unitWrite hm _ fun b => putSlotField b _ (enc2 (clamp3 (bField w).toInt)))⟩

/-- The `GET` row of R122 (R90, R92, R93). -/
theorem execGet_agreesWith (hdec : decode w = .command (.get (aField w).toInt)) (p : List Byte) :
    AgreesWith s (wholeStep s.maxUnits s.abstract w p) (execGet (aField w).toInt s) := by
  simp only [wholeStep, hdec]
  rcases execGet_cases (aField w).toInt s with ⟨e, herr, he⟩ | ⟨u, c, hloc, he⟩
  · rw [he, signedField_of_toInt,
      accessChecks_of_locate_error herr (fun e => (s.abstract, (⟨e, aField w, []⟩ : Response)))]
    exact agreesWith_pushRsp s _
  · rw [he, accessChecks_of_locate_ok hloc]
    obtain ⟨-, -, hslen, rfl, rfl⟩ := locate_eq_ok.mp hloc
    rw [State.abstract, units_getD hslen]
    exact agreesWith_pushRsp s _

/-- The `EXPORT` row of R122 (R96). -/
theorem execExport_agreesWith (hdec : decode w = .command .exportStorage) (p : List Byte) :
    AgreesWith s (wholeStep s.maxUnits s.abstract w p) (execExport s) := by
  have hslen : BitVec.ofNat 32 s.abstract.store.length = s.slen :=
    (congrArg unsignedField s.units_length).trans (unsignedField_of_toNat s.slen)
  simp only [wholeStep, hdec]
  rw [execExport_eq, hslen]
  exact agreesWith_pushRsp s _

/-- A decoded command with its payload on `din` does what its row of R122 says. -/
theorem exec_agreesWith {i : Instr} (hdec : decode w = .command i) (hp : s.din.length = payloadLength w) :
    AgreesWith s (wholeStep s.maxUnits s.abstract w s.din) (exec i s) := by
  have hlen := payloadLength_of_decode hdec
  obtain ⟨o, -, rfl⟩ := decode_eq_command.mp hdec
  cases o with
  | init => exact execInit_agreesWith s hdec s.din
  | adopt => exact execAdopt_agreesWith s hdec (hp.trans hlen)
  | set => exact execSet_agreesWith s hdec s.din
  | get => exact execGet_agreesWith s hdec s.din
  | exportStorage => exact execExport_agreesWith s hdec s.din

end

/-- R122 in every state: a step on a command with its payload agrees with the whole-command function. -/
theorem step_agreesWith {s : State} {w : CmdWord} {p : List Byte} {rest : List HostInput}
    (hh : s.host = .command w p :: rest) (hp : p.length = payloadLength w) :
    AgreesWith ((s.setHost rest).setDin p) (wholeStep s.maxUnits s.abstract w p) (step s) := by
  rcases step_command_cases hh with ⟨hne, -⟩ | ⟨-, r, hdec, he⟩ | ⟨-, i, hdec, he⟩
  · exact absurd hp hne
  · rw [he]
    simp only [wholeStep, hdec, decode_illegal_op hdec]
    exact agreesWith_pushRsp ((s.setHost rest).setDin []) _
  · rw [he]
    exact exec_agreesWith ((s.setHost rest).setDin p) hdec hp

/-- Settles O45: of the invariant, the canonical form of the store is what the agreement needs. -/
theorem stepRefinesWholeCommand : Obligations.StepRefinesWholeCommand := by
  intro s w p rest hs hh hp
  obtain ⟨t, ht, hhost, hrsp, habs⟩ := step_agreesWith hh hp
  exact ⟨t, ht, hhost, habs hs.wf, hrsp⟩

/-! ### The order of the checks -/

/-- Two accounts of the responses so far that differ in the last one at most do not differ (R123). -/
theorem last_response_unique {rs new : List Response} {r r' : Response} (h : new = rs ++ [r])
    (h' : new = rs ++ [r']) : r = r' :=
  List.singleton_inj.mp (List.append_cancel_left (h.symm.trans h'))

/-- The response of a step that completes is that of R122's function, in every state. -/
theorem response_eq_wholeStep {s t : State} {w : CmdWord} {p : List Byte} {rest : List HostInput} {r : Response}
    (hh : s.host = .command w p :: rest) (h : step s = .next t) (hr : t.rsp = s.rsp ++ [r]) :
    r = (wholeStep s.maxUnits s.abstract w p).2 := by
  have hp : p.length = payloadLength w :=
    by_contra fun hne => nomatch (wrongPayloadLengthStops s w p rest hh hne).symm.trans h
  obtain ⟨t', ht', -, hrsp, -⟩ := step_agreesWith hh hp
  obtain rfl := Host.Outcome.next.inj (ht'.symm.trans h)
  exact last_response_unique hr hrsp

/-- Settles O40: R122's function makes the checks in the order of R106, and the response is that function's. -/
theorem firstFailingCheckIsReported : Obligations.FirstFailingCheckIsReported := by
  intro s t w p rest r hh h hr
  obtain rfl := response_eq_wholeStep hh h hr
  have hcap : Config.maxCount s.maxUnits = 4 * s.maxUnits := rfl
  refine ⟨fun e hdec => ?_, fun n hdec => ?_, fun n len hdec => ?_, fun i hdec => ?_⟩
  · simp only [wholeStep, hdec]
  · simp only [wholeStep, hdec, hcap, gt_iff_lt]
    split_ifs <;> rfl
  · simp only [wholeStep, hdec, hcap, gt_iff_lt]
    split_ifs <;> rfl
  · rcases hdec with hdec | ⟨v, hdec⟩ <;>
      simp only [wholeStep, hdec, State.abstract, State.units_length, ge_iff_le] <;>
      split_ifs <;> rfl

/-! ### Which command raises which error -/

/-- The errors that a command which decodes to the opcode can raise: R105's table without `ILLEGAL_COMMAND`. -/
def raisableErrors : Opcode → List Status
  | .init | .adopt => [.capacityExceeded]
  | .set | .get => [.indexOutOfRange, .storageBounds]
  | .exportStorage => []

/-- The answer of a command from `s` to `t` is `OK`, or an error of its row which has no effect beyond its response
and on `din` (R105, R109). -/
def OkOrRaised (i : Instr) (s t : State) : Prop :=
  ∃ r, t.rsp = s.rsp ++ [r] ∧
    (r.status = .ok ∨ r.status ∈ raisableErrors i.opcode ∧ t = (s.setDin t.din).pushRsp r)

/-- An access that `locate` refuses raises an error of its row (R105). -/
theorem OkOrRaised.of_locate_error {i : Instr} {j : Int} {s : State} {e : Status} {data : Word}
    (hi : i.opcode = .set ∨ i.opcode = .get) (h : locate j s = .error e) :
    OkOrRaised i s (s.pushRsp ⟨e, data, []⟩) := by
  refine ⟨_, rfl, .inr ⟨?_, rfl⟩⟩
  rcases hi with hi | hi <;> rcases locate_error h with ⟨rfl, -⟩ | ⟨rfl, -⟩ <;> simp [hi, raisableErrors]

/-- Every command that completes answers `OK` or raises an error of its row (R105). -/
theorem exec_okOrRaised {i : Instr} {s t : State} (h : exec i s = .next t) : OkOrRaised i s t := by
  cases i with
  | init n =>
    rcases execInit_cases n s with ⟨-, he⟩ | ⟨-, he⟩ <;> obtain rfl := Host.Outcome.next.inj (he.symm.trans h)
    · exact ⟨_, rfl, .inl rfl⟩
    · exact ⟨_, rfl, .inr ⟨List.mem_singleton_self _, rfl⟩⟩
  | adopt n len =>
    rcases execAdopt_cases n len s with ⟨-, he⟩ | ⟨-, -, he⟩ | ⟨-, -, -, he⟩ | ⟨-, -, -, he⟩
    · exact nomatch he.symm.trans h
    · obtain rfl := Host.Outcome.next.inj (he.symm.trans h)
      exact ⟨_, rfl, .inr ⟨List.mem_singleton_self _, rfl⟩⟩
    · obtain rfl := Host.Outcome.next.inj (he.symm.trans h)
      exact ⟨_, rfl, .inr ⟨List.mem_singleton_self _, rfl⟩⟩
    · obtain rfl := Host.Outcome.next.inj (he.symm.trans h)
      exact ⟨_, rfl, .inl rfl⟩
  | set j v =>
    rcases execSet_cases j v s with ⟨e, herr, he⟩ | ⟨u, c, -, he⟩ <;>
      obtain rfl := Host.Outcome.next.inj (he.symm.trans h)
    · exact .of_locate_error (.inl rfl) herr
    · exact ⟨_, rfl, .inl rfl⟩
  | get j =>
    rcases execGet_cases j s with ⟨e, herr, he⟩ | ⟨u, c, -, he⟩ <;>
      obtain rfl := Host.Outcome.next.inj (he.symm.trans h)
    · exact .of_locate_error (.inr rfl) herr
    · exact ⟨_, rfl, .inl rfl⟩
  | exportStorage =>
    obtain rfl := Host.Outcome.next.inj ((execExport_eq s).symm.trans h)
    exact ⟨_, rfl, .inl rfl⟩

/-- The status of a command's response is `OK` or an error of its row (R105). -/
theorem status_of_exec {i : Instr} {s t : State} {r : Response} (h : exec i s = .next t)
    (hr : t.rsp = s.rsp ++ [r]) : r.status = .ok ∨ r.status ∈ raisableErrors i.opcode := by
  obtain ⟨r', hr', hcase⟩ := exec_okOrRaised h
  obtain rfl := last_response_unique hr' hr
  exact hcase.imp_right And.left

/-- Index 0 fails either check of an access in some state: no value, or one value without a unit (R83, R85). -/
theorem exists_locate_error {e : Status} (he : e = .indexOutOfRange ∨ e = .storageBounds) :
    ∃ s, locate 0 s = .error e := by
  rcases he with rfl | rfl
  · exact ⟨State.reset, locate_of_count_zero rfl 0⟩
  · exact ⟨construct 1 [] State.reset, locate_storageBounds le_rfl (by decide) (by decide)⟩

/-- An opcode of no row is reserved (R62, R63). -/
theorem decode_of_reserved {w : CmdWord} (h : ∀ o : Opcode, opField w ≠ o.code) :
    decode w = .illegal (.reservedOpcode (opField w)) := by
  have hnone : Opcode.ofCode (opField w) = none :=
    Option.eq_none_iff_forall_ne_some.mpr fun o ho => h o (Opcode.ofCode_eq_some.mp ho)
  rw [decode, hnone]

/-- No value changes what a `SET` answers (R84, R105). -/
theorem execSet_response (i : Int) (s : State) :
    ∃ r, ∀ v, ∃ t, execSet i v s = .next t ∧ t.rsp = s.rsp ++ [r] := by
  cases hloc : locate i s with
  | error e => exact ⟨_, fun v => ⟨_, execSet_of_locate_error hloc v, rfl⟩⟩
  | ok p => exact ⟨_, fun v => ⟨_, execSet_of_locate_ok hloc v, rfl⟩⟩

/-- Settles O39: no command leaves its row; a count beyond capacity and the two failing indices raise each error
of the table; a word with `RSV = 1` is illegal whatever its opcode. -/
theorem errorsOfEachCommand : Obligations.ErrorsOfEachCommand := by
  refine ⟨fun i s t r h hr => ?_, fun o ho => ?_, fun o e ho he => ?_, fun o => ?_,
    fun w => decode_of_reserved, fun i v s => ?_⟩
  · have hst := status_of_exec h hr
    refine ⟨?_, ?_, fun hop => ?_⟩
    · rintro (hop | hop) <;> simpa [hop, raisableErrors] using hst
    · rintro (hop | hop) <;> simpa [hop, raisableErrors] using hst
    · simpa [hop, raisableErrors] using hst
  · have hgt : State.reset.maxCount < State.reset.maxCount + 1 := Nat.lt_succ_self _
    rcases ho with rfl | rfl
    · exact ⟨.init _, State.reset, _, _, rfl, execInit_of_gt hgt, rfl, rfl⟩
    · exact ⟨.adopt _ 0, State.reset, _, _, rfl, execAdopt_of_count_gt rfl hgt, rfl, rfl⟩
  · obtain ⟨s, herr⟩ := exists_locate_error he
    rcases ho with rfl | rfl
    · exact ⟨.set 0 0, s, _, _, rfl, execSet_of_locate_error herr 0, rfl, rfl⟩
    · exact ⟨.get 0, s, _, _, rfl, execGet_of_locate_error herr, rfl, rfl⟩
  · refine ⟨packCommand o.code 1#8 0#32 0#32, opField_packCommand .., ?_⟩
    exact decode_of_breaksEncoding (opField_packCommand ..) (.inr (.inr (.inl (by simp))))
  · obtain ⟨r, hr⟩ := execSet_response i s
    obtain ⟨t, ht, htr⟩ := hr v
    obtain ⟨t', ht', htr'⟩ := hr 0
    exact ⟨t, t', r, ht, ht', htr, htr'⟩

/-! ### What an error leaves behind, and a step without an input -/

/-- Settles O37: an illegal word and a raised error only respond, and the payload is gone in either case. -/
theorem failedCommandHasNoEffect : Obligations.FailedCommandHasNoEffect := by
  intro s t w p rest r hh h hr hne
  rcases step_command_cases hh with ⟨-, he⟩ | ⟨-, e, -, he⟩ | ⟨hp, i, hdec, he⟩
  · exact nomatch he.symm.trans h
  · obtain rfl := Host.Outcome.next.inj (he.symm.trans h)
    rw [← hr]
    rfl
  · have hexec := he.symm.trans h
    have hdin : t.din = [] := (exec_effect hexec (hp.trans (payloadLength_eq_payloadOf hdec))).din_eq
    obtain ⟨r', hr', hcase⟩ := exec_okOrRaised hexec
    obtain rfl := last_response_unique hr' hr
    obtain ⟨-, ht⟩ := hcase.resolve_left hne
    rw [hdin] at ht
    exact ht

/-- Settles O13: of the two ways of `step_cases`, the other takes an input. -/
theorem noInputHoldsState : Obligations.NoInputHoldsState := by
  intro s hnone
  rcases step_cases s with ⟨-, he⟩ | ⟨x, rest, hsome, -⟩
  · exact he
  · exact nomatch hnone.symm.trans hsome

end Sys2Proof.Machine

/-! ## Reset and hazards: every command completes with one response, what stops one, and the reset inputs -/

namespace Sys2Proof.Machine

/-! ### One response for each command -/

/-- The `EXPORT` row of R122's function: the units of the store, and their number. -/
theorem wholeStep_export {w : CmdWord} (hdec : decode w = .command .exportStorage) (m : Nat) (st : PbaState)
    (p : List Byte) : wholeStep m st w p = (st, ⟨.ok, BitVec.ofNat 32 st.store.length, st.store⟩) := by
  simp only [wholeStep, hdec]

/-- Of the responses a word can be given, only that of `EXPORT` has bytes on `dout` (R59). -/
theorem Answers.dout_eq_nil {s : State} {w : CmdWord} {r : Response} (h : Answers s w r)
    (hne : decode w ≠ .command .exportStorage) : r.dout = [] := by
  cases h with
  | units hdec => exact absurd hdec hne
  | illegal | access | count | length | value | done => rfl

/-- Settles O38: the step agrees with R122's function, which is total, so it completes with that function's
response; its row for `EXPORT` gives the bytes there, and no other response has any. -/
theorem oneResponsePerCommand : Obligations.OneResponsePerCommand := by
  intro s w p rest hh hp
  obtain ⟨t, ht, hhost, hrsp, -⟩ := step_agreesWith hh hp
  refine ⟨t, _, ht, hrsp, hhost, fun hdec => ?_, fun hne => ?_⟩
  · rw [wholeStep_export hdec]
    exact ⟨rfl, s.units_length, by simp [State.abstract]⟩
  · obtain ⟨r, hr, ha⟩ := step_answers hh ht
    rw [last_response_unique hrsp hr]
    exact ha.dout_eq_nil hne

/-! ### What stops a command -/

/-- Every command completes in every state, but for an `ADOPT` without its payload (R127, R129). -/
theorem exec_completes_or_payloadLength (i : Instr) (s : State) : (∃ t, exec i s = .next t) ∨
    (exec i s = .fault .payloadLength ∧ ∃ n len, i = .adopt n len ∧ s.din.length ≠ len) := by
  cases i with
  | init n => rcases execInit_cases n s with ⟨-, he⟩ | ⟨-, he⟩ <;> exact .inl ⟨_, he⟩
  | adopt n len =>
    rcases execAdopt_cases n len s with ⟨hne, he⟩ | ⟨-, -, he⟩ | ⟨-, -, -, he⟩ | ⟨-, -, -, he⟩
    · exact .inr ⟨he, n, len, rfl, hne⟩
    · exact .inl ⟨_, he⟩
    · exact .inl ⟨_, he⟩
    · exact .inl ⟨_, he⟩
  | set j v => rcases execSet_cases j v s with ⟨e, -, he⟩ | ⟨u, c, -, he⟩ <;> exact .inl ⟨_, he⟩
  | get j => rcases execGet_cases j s with ⟨e, -, he⟩ | ⟨u, c, -, he⟩ <;> exact .inl ⟨_, he⟩
  | exportStorage => exact .inl ⟨_, execExport_eq s⟩

theorem exec_ne_refused (i : Instr) (s : State) (r : Refusal) : exec i s ≠ .refused r := by
  rcases exec_completes_or_payloadLength i s with ⟨t, he⟩ | ⟨he, -⟩ <;> rw [he] <;> exact nofun

theorem runCommand_ne_refused (w : CmdWord) (s : State) (r : Refusal) : runCommand w s ≠ .refused r := by
  rcases runCommand_cases w s with ⟨-, he⟩ | ⟨-, e, -, he⟩ | ⟨-, i, -, he⟩ <;> rw [he]
  · exact nofun
  · exact nofun
  · exact exec_ne_refused i s r

theorem takeInput_ne_refused (x : HostInput) (s : State) (r : Refusal) : takeInput x s ≠ .refused r := by
  cases x with
  | command w p => exact runCommand_ne_refused w (s.setDin p) r
  | reset => exact nofun
  | resetDuring w p => exact nofun

/-- Settles O44: the commands by their cases, and a step does what a command, a reset or no input does. -/
theorem onlyMissingPayloadStops : Obligations.OnlyMissingPayloadStops := by
  refine ⟨exec_completes_or_payloadLength, fun s r => ?_⟩
  rcases step_cases s with ⟨-, he⟩ | ⟨x, rest, -, he⟩ <;> rw [he]
  · exact nofun
  · exact takeInput_ne_refused x (s.setHost rest) r

/-! ### The reset inputs -/

/-- A step on either reset input is a reset, with the later inputs still to be taken (R124, R125). -/
theorem step_of_reset {s : State} {x : HostInput} {rest : List HostInput} (hh : s.host = x :: rest)
    (hx : x = .reset ∨ ∃ w p, x = .resetDuring w p) : step s = .next (applyReset (s.setHost rest)) := by
  rcases hx with rfl | ⟨w, p, rfl⟩ <;> simp only [step, hh, takeInput]

/-- Settles O14: the step is `applyReset`, which leaves no unit and only sets the buffer and `din`. -/
theorem resetInputResets : Obligations.ResetInputResets := by
  intro s x rest hh hx
  exact ⟨_, step_of_reset hh hx, rfl, rfl, State.unitAt_of_slen_zero rfl, rfl, rfl, rfl, rfl⟩

end Sys2Proof.Machine
